-- ==== Sys2Proof/Config.lean ====
section
/-!
DEFINITION. What an implementation fixes and the spec leaves open as a named parameter (00_scope.md R8, decision D7).
-/

namespace Sys2Proof

/-- How far above 65535 an implementation's `PAYLOAD_CAP` lies. Opaque: R8 leaves it open, so nothing may be proved of its
value beyond the bounds R8 states (log 8). -/
opaque Config.payloadCapExcess : Fin 4294901761

/-- `PAYLOAD_CAP` of R8: the largest payload length the buffers hold for a profile without a length field, "at least 65535
and at most 2^32 - 1". -/
def Config.payloadCap : Nat := 65535 + Config.payloadCapExcess.val

end Sys2Proof
end

