-- ==== Sys2Proof/Word.lean ====
section
/-!
DEFINITION. The byte, and the one widening the codec performs on it (00_scope.md R10, 30_encoding.md R102).
-/

namespace Sys2Proof

/-- A byte: an unsigned integer in 0..255, bit 0 least significant (R10). -/
abbrev Byte := BitVec 8

/-- `zext_32` of a byte: the `msg_id` of a result (R10, R65, R102). -/
def zext32 (b : Byte) : BitVec 32 := b.setWidth 32

end Sys2Proof
end

