-- ==== Sys2Proof/Syntax.lean ====
section
/-!
DEFINITION. The operands and the instructions: one constructor of `Instr` per row of spec/opcode_table.json. Fourteen rows
are the operations of 30_encoding.md R110, six are the frame formats of R90 to R98, five are the per-state rules SDEC.STEP
dispatches to (R111, R114).
-/

namespace Sys2Proof

/-- `P`, the FrameProfileConfig, with the eleven fields of 10_state.md R21. `storedHeaderSize` is the field the spec calls
`header_size`; the derived quantity of R142 is `Profile.headerSize`. -/
structure Profile where
  nStart           : Nat
  start1           : Byte
  start2           : Byte
  hasSequence      : Bool
  hasSystemId      : Bool
  hasComponentId   : Bool
  hasLength        : Bool
  lengthWidth      : Nat
  hasPackageId     : Bool
  footerSize       : Nat
  storedHeaderSize : Nat
deriving DecidableEq, Repr

/-- `L`, the lookup `get_length_for_msg_id` of R24, as the finite table of its `some` answers; an unlisted byte answers
`none` (log 7). The notation `L{7:3, 9:0}` of 95_test_vectors.md is `[(7, 3), (9, 0)]`. -/
abbrev Lookup := List (Byte × Nat)

/-- The instructions. An omitted lookup (R112) is `none`; omitted `seq`, `sys_id`, `comp_id`, `pkg_id` are 0. -/
inductive Instr where
  /-- CHK.INIT (R131). -/
  | chkInit
  /-- CHK.UPDATE(b) (R132). -/
  | chkUpdate (b : Byte)
  /-- CHK.COMPUTE(bs) (R133). -/
  | chkCompute (bs : List Byte)
  /-- CHK.VERIFY(bs, f0, f1) (R135). -/
  | chkVerify (bs : List Byte) (f0 f1 : Byte)
  /-- CFG.HEADER_SIZE(P) (R142). -/
  | cfgHeaderSize (p : Profile)
  /-- CFG.MAX_PAYLOAD(P) (R143). -/
  | cfgMaxPayload (p : Profile)
  /-- CFG.OVERHEAD(P) (R144). -/
  | cfgOverhead (p : Profile)
  /-- ENC.ENCODE(P, msg_id, payload, seq, sys_id, comp_id, pkg_id) (R150). -/
  | encEncode (p : Profile) (msgId : Byte) (payload : List Byte) (seq sysId compId pkgId : Byte)
  /-- DEC.VALIDATE(P, buffer, L?) (R160). -/
  | decValidate (p : Profile) (buffer : List Byte) (l : Option Lookup)
  /-- SDEC.STEP(b) (R181). -/
  | sdecStep (b : Byte)
  /-- SDEC.RESET (R193). -/
  | sdecReset
  /-- ACR.PUSH(bytes) (R211). -/
  | acrPush (bytes : List Byte)
  /-- ACR.NEXT() (R212). -/
  | acrNext
  /-- ACR.RESET() (R213). -/
  | acrReset
  /-- FRAME.STANDARD (R94): the header bytes after the two start bytes, then everything behind the header. -/
  | frameStandard (len msgId : Byte) (body : List Byte)
  /-- FRAME.SENSOR (R95). -/
  | frameSensor (l : Option Lookup) (msgId : Byte) (body : List Byte)
  /-- FRAME.IPC (R96). -/
  | frameIpc (l : Option Lookup) (msgId : Byte) (body : List Byte)
  /-- FRAME.BULK (R97). -/
  | frameBulk (lenLo lenHi pkgId msgId : Byte) (body : List Byte)
  /-- FRAME.NETWORK (R98). -/
  | frameNetwork (seq sysId compId lenLo lenHi pkgId msgId : Byte) (body : List Byte)
  /-- FRAME.GENERIC (R90): any profile; `fields` are the header-field bytes after the start bytes, in frame order. -/
  | frameGeneric (p : Profile) (l : Option Lookup) (fields body : List Byte)
  /-- SDEC.STEP@LFS1 (R183, R184). -/
  | sdecStepLfs1 (b : Byte)
  /-- SDEC.STEP@LFS2 (R185). -/
  | sdecStepLfs2 (b : Byte)
  /-- SDEC.STEP@HDR (R186, R187). -/
  | sdecStepHdr (b : Byte)
  /-- SDEC.STEP@PAY (R188). -/
  | sdecStepPay (b : Byte)
  /-- SDEC.STEP@FTR (R189). -/
  | sdecStepFtr (b : Byte)
deriving DecidableEq, Repr

end Sys2Proof
end

