-- ==== Sys2Proof/Machine/Profiles.lean ====
section
/-!
DEFINITION. Computations on the profile `P` and the lookup `L`: the header-field list, the derived sizes and the five
canonical constants (41_profile_sizing.md R140 to R147), and the answer of the lookup (10_state.md R24).
-/

namespace Sys2Proof

/-- The header-field byte tags of R140, one per byte. -/
inductive Tag where
  | seq | sys | comp | len0 | len1 | pkg | msg
deriving DecidableEq, Repr

/-- `FIELDS(P)` (R140). -/
def Profile.fields (p : Profile) : List Tag :=
  (if p.hasSequence then [.seq] else []) ++
  (if p.hasSystemId then [.sys] else []) ++
  (if p.hasComponentId then [.comp] else []) ++
  (if p.hasLength then [.len0] else []) ++
  (if p.hasLength ∧ p.lengthWidth = 2 then [.len1] else []) ++
  (if p.hasPackageId then [.pkg] else []) ++
  [.msg]

/-- `hdr_len(P)` (R140). -/
def Profile.hdrLen (p : Profile) : Nat := p.fields.length

/-- `LW` of R92: the bytes of the length field, 0 where the profile has none. -/
def Profile.lenBytes (p : Profile) : Nat := if p.hasLength then p.lengthWidth else 0

/-- `header_size(P)` (R142). -/
def Profile.headerSize (p : Profile) : Nat :=
  p.nStart + p.hasSequence.toNat + p.hasSystemId.toNat + p.hasComponentId.toNat + p.lenBytes + p.hasPackageId.toNat + 1

/-- `overhead(P)` (R144). -/
def Profile.overhead (p : Profile) : Nat := p.headerSize + p.footerSize

/-- `max_payload(P)` (R143); `none` is "unbounded". -/
def Profile.maxPayload (p : Profile) : Option Nat :=
  if p.hasLength then some (if p.lengthWidth = 1 then 255 else 65535) else none

/-- The start bytes that open every frame (R90, R91). -/
def Profile.startBytes (p : Profile) : List Byte :=
  (if 1 ≤ p.nStart then [p.start1] else []) ++ (if p.nStart = 2 then [p.start2] else [])

/-- Standard (R146). -/
def Profile.standard : Profile where
  nStart := 2
  start1 := 0x90
  start2 := 0x71
  hasSequence := false
  hasSystemId := false
  hasComponentId := false
  hasLength := true
  lengthWidth := 1
  hasPackageId := false
  footerSize := 2
  storedHeaderSize := 4

/-- Sensor (R146); the fields R146 marks `-` are not read (R22) and hold 0. -/
def Profile.sensor : Profile where
  nStart := 1
  start1 := 0x70
  start2 := 0
  hasSequence := false
  hasSystemId := false
  hasComponentId := false
  hasLength := false
  lengthWidth := 0
  hasPackageId := false
  footerSize := 0
  storedHeaderSize := 2

/-- IPC (R146); the fields R146 marks `-` are not read (R22) and hold 0. -/
def Profile.ipc : Profile where
  nStart := 0
  start1 := 0
  start2 := 0
  hasSequence := false
  hasSystemId := false
  hasComponentId := false
  hasLength := false
  lengthWidth := 0
  hasPackageId := false
  footerSize := 0
  storedHeaderSize := 1

/-- Bulk (R146). -/
def Profile.bulk : Profile where
  nStart := 2
  start1 := 0x90
  start2 := 0x74
  hasSequence := false
  hasSystemId := false
  hasComponentId := false
  hasLength := true
  lengthWidth := 2
  hasPackageId := true
  footerSize := 2
  storedHeaderSize := 6

/-- Network (R146). -/
def Profile.network : Profile where
  nStart := 2
  start1 := 0x90
  start2 := 0x78
  hasSequence := true
  hasSystemId := true
  hasComponentId := true
  hasLength := true
  lengthWidth := 2
  hasPackageId := true
  footerSize := 2
  storedHeaderSize := 9

/-- The answer `L(m)`: a function of the msg_id byte alone (R24). -/
def lookupLength (l : Lookup) (m : Byte) : Option Nat := l.lookup m

/-- A payload length the buffers hold: at most `PAYLOAD_CAP` (R8). Since `PAYLOAD_CAP` is at least 65535, the first test only
spares the opaque constant where its value does not matter. -/
def withinPayloadCap (n : Nat) : Bool := decide (n ≤ 65535) || decide (n ≤ Config.payloadCap)

/-- `L(m) = some n` implies `n <= PAYLOAD_CAP` (R24, D6). -/
def lookupFits (l : Lookup) : Bool := l.all fun e => withinPayloadCap e.2

/-- `BUF_CAP` of R8, the least capacity it allows: `header_size + M + footer_size`. -/
def bufCap (p : Profile) : Nat := p.headerSize + p.maxPayload.getD Config.payloadCap + p.footerSize

end Sys2Proof
end

