-- ==== Sys2Proof/WellFormed.lean ====
section
/-!
DEFINITION. Which operands are well-formed: the configurations of 41_profile_sizing.md R141, the lookups of 10_state.md R24,
and, instruction by instruction, what a request can carry.
-/

namespace Sys2Proof

/-- `WF(P)` (R141): "Every operation of this spec is defined for well-formed configurations only." -/
abbrev Profile.WF (p : Profile) : Prop :=
  (p.nStart = 0 ∨ p.nStart = 1 ∨ p.nStart = 2) ∧
  (p.hasLength = false ∨ p.lengthWidth = 1 ∨ p.lengthWidth = 2) ∧
  (p.footerSize = 0 ∨ p.footerSize = 2) ∧
  p.storedHeaderSize = p.nStart + p.hdrLen

/-- The width R21 gives `length_width`, 2 bits; it bounds the field also where no operation reads it (R22). The widths of the
other number fields follow from `Profile.WF`. -/
abbrev Profile.WidthsOk (p : Profile) : Prop := p.lengthWidth < 4

/-- The entries of a lookup table stand in strictly rising order of msg_id, so that the table is a function and equal tables
are equal data. -/
def lookupRising : Lookup → Bool
  | [] => true
  | [_] => true
  | a :: b :: rest => decide (a.1.toNat < b.1.toNat) && lookupRising (b :: rest)

/-- A lookup table a request can carry: strictly rising, at most one entry a byte, answers of 32 bits (`payload_len` is held
in 32 bits, R28). -/
abbrev lookupWF (l : Lookup) : Prop :=
  lookupRising l = true ∧ l.length ≤ 256 ∧ (l.all fun e => decide (e.2 < 4294967296)) = true

/-- An optional lookup operand (R112). -/
abbrev optLookupWF : Option Lookup → Prop
  | none => True
  | some l => lookupWF l

/-- The operand checks of one profile. -/
def profileOk (p : Profile) : Bool := decide p.WF && decide p.WidthsOk

/-- The operand checks of one optional lookup. -/
def optLookupOk : Option Lookup → Bool
  | none => true
  | some l => decide (lookupWF l)

/-- Well-formed instructions: those whose operands lie in the domain of 10_state.md R37. -/
def Instr.wf : Instr → Bool
  | .chkInit => true
  | .chkUpdate _ => true
  | .chkCompute _ => true
  | .chkVerify _ _ _ => true
  | .cfgHeaderSize p => profileOk p
  | .cfgMaxPayload p => profileOk p
  | .cfgOverhead p => profileOk p
  | .encEncode p _ _ _ _ _ _ => profileOk p
  | .decValidate p _ l => profileOk p && optLookupOk l
  | .sdecStep _ => true
  | .sdecReset => true
  | .acrPush _ => true
  | .acrNext => true
  | .acrReset => true
  | .frameStandard _ _ _ => true
  | .frameSensor l _ _ => optLookupOk l
  | .frameIpc l _ _ => optLookupOk l
  | .frameBulk _ _ _ _ _ => true
  | .frameNetwork _ _ _ _ _ _ _ _ => true
  | .frameGeneric p l fields _ => profileOk p && optLookupOk l && decide (fields.length = p.hdrLen)
  | .sdecStepLfs1 _ => true
  | .sdecStepLfs2 _ => true
  | .sdecStepHdr _ => true
  | .sdecStepPay _ => true
  | .sdecStepFtr _ => true

end Sys2Proof
end

