-- ==== Sys2Proof/Decode.lean ====
section
/-!
DEFINITION. The decoder and the encoder of a request. A request is one transaction at the operation interface (10_state.md
R37): its first byte selects a row of spec/opcode_table.json, the bytes after it are the operands. The low half of the first
byte is the spec's own code of the row (select codes of 30_encoding.md R110, state codes of R111, the table's order for the
frame rows); the high half is the row's `format` (R114): 0 op4, 1 state3, 2 frame. The spec gives operands no bit pattern:
their layout is the model's (log 4). The decoder is total and rejects by name.
-/

namespace Sys2Proof

/-- Why a request is rejected. The environment raises every one of them; each is safe: the machine stops where the spec gives
the request no meaning. -/
inductive Reject where
  /-- A request of no bytes (the model's own layout, log 4). -/
  | emptyRequest
  /-- A select code outside 0x0 to 0xD: "not an operation and is refused at the interface" (R110, U9). -/
  | undefinedSelectCode (code : Nat)
  /-- A state code 5 to 15: no such state (R111). -/
  | undefinedStateCode (code : Nat)
  /-- A frame row the table does not have (R114). -/
  | undefinedFrameRow (code : Nat)
  /-- A format that is no format of the table (R114). -/
  | undefinedFormat (code : Nat)
  /-- Operand bytes missing (the model's own layout, log 4). -/
  | operandsMissing
  /-- Operand bytes left over (the model's own layout, log 4). -/
  | operandsLeftOver
  /-- A byte that stands for no truth value (the model's own layout, log 4). -/
  | notABool (b : Byte)
  /-- A configuration that is not well-formed: "refused when it is constructed" (R107, R141, U3). -/
  | illFormedConfiguration
  /-- A lookup table that is not one strictly rising table of at most 256 answers (log 7). -/
  | illFormedLookup
  /-- The bytes of a frame row do not match the row's `match` under its `mask` (R114). -/
  | frameDoesNotMatch
deriving DecidableEq, Repr

/-! ### The decoder -/

/-- A truth value is the byte 0 or 1 (log 4). -/
def decodeBool (b : Byte) : Except Reject Bool :=
  if b = 0 then .ok false else if b = 1 then .ok true else .error (.notABool b)

/-- The five flags of a profile. -/
def decodeFlags (a b c d e : Byte) : Except Reject (Bool × Bool × Bool × Bool × Bool) :=
  match decodeBool a, decodeBool b, decodeBool c, decodeBool d, decodeBool e with
  | .ok a, .ok b, .ok c, .ok d, .ok e => .ok (a, b, c, d, e)
  | .error r, _, _, _, _ => .error r
  | _, .error r, _, _, _ => .error r
  | _, _, .error r, _, _ => .error r
  | _, _, _, .error r, _ => .error r
  | _, _, _, _, .error r => .error r

/-- A profile is the eleven fields of R21 in their order, a byte each; `header_size`, 1 to 9, is held less 1 (log 4). An
ill-formed one is refused (R107, R141). -/
def decodeProfile : List Byte → Except Reject (Profile × List Byte)
  | n :: s1 :: s2 :: sq :: sy :: co :: ln :: lw :: pk :: ft :: hs :: rest =>
    match decodeFlags sq sy co ln pk with
    | .error r => .error r
    | .ok (sq, sy, co, ln, pk) =>
      let p : Profile := ⟨n.toNat, s1, s2, sq, sy, co, ln, lw.toNat, pk, ft.toNat, hs.toNat + 1⟩
      if profileOk p then .ok (p, rest) else .error .illFormedConfiguration
  | _ => .error .operandsMissing

/-- Four bytes, low byte first. -/
def word32 (a b c d : Byte) : Nat := a.toNat + 256 * b.toNat + 65536 * c.toNat + 16777216 * d.toNat

/-- `k` entries of a lookup table: the msg_id, then the length in four bytes, low byte first (log 4). -/
def decodeEntries : Nat → List Byte → Except Reject (Lookup × List Byte)
  | 0, rest => .ok ([], rest)
  | k + 1, m :: a :: b :: c :: d :: rest =>
    match decodeEntries k rest with
    | .error r => .error r
    | .ok (l, rest) => .ok ((m, word32 a b c d) :: l, rest)
  | _ + 1, _ => .error .operandsMissing

/-- An optional lookup: a byte 0 where it is omitted (R112); else a byte 1, the number of entries in two bytes, low byte
first, and the entries (log 4). -/
def decodeLookup : List Byte → Except Reject (Option Lookup × List Byte)
  | [] => .error .operandsMissing
  | present :: rest =>
    if present = 0 then .ok (none, rest)
    else if present = 1 then
      match rest with
      | lo :: hi :: rest =>
        match decodeEntries (lo.toNat + 256 * hi.toNat) rest with
        | .error r => .error r
        | .ok (l, rest) => if optLookupOk (some l) then .ok (some l, rest) else .error .illFormedLookup
      | _ => .error .operandsMissing
    else .error (.notABool present)

/-- An instruction without operands. -/
def decodeNoOperand (i : Instr) : List Byte → Except Reject Instr
  | [] => .ok i
  | _ :: _ => .error .operandsLeftOver

/-- An instruction with one byte operand. -/
def decodeByteOperand (mk : Byte → Instr) : List Byte → Except Reject Instr
  | [] => .error .operandsMissing
  | [b] => .ok (mk b)
  | _ :: _ :: _ => .error .operandsLeftOver

/-- CHK.VERIFY: f0, f1, then bs. -/
def decodeVerify : List Byte → Except Reject Instr
  | f0 :: f1 :: bs => .ok (.chkVerify bs f0 f1)
  | _ => .error .operandsMissing

/-- An instruction whose one operand is P. -/
def decodeProfileOperand (mk : Profile → Instr) (bs : List Byte) : Except Reject Instr :=
  match decodeProfile bs with
  | .error r => .error r
  | .ok (p, rest) => decodeNoOperand (mk p) rest

/-- ENC.ENCODE: P, msg_id, seq, sys_id, comp_id, pkg_id, then the payload. -/
def decodeEncode (bs : List Byte) : Except Reject Instr :=
  match decodeProfile bs with
  | .error r => .error r
  | .ok (p, m :: sq :: sy :: co :: pk :: payload) => .ok (.encEncode p m payload sq sy co pk)
  | .ok _ => .error .operandsMissing

/-- DEC.VALIDATE: P, the optional L, then the buffer. -/
def decodeValidate (bs : List Byte) : Except Reject Instr :=
  match decodeProfile bs with
  | .error r => .error r
  | .ok (p, rest) =>
    match decodeLookup rest with
    | .error r => .error r
    | .ok (l, buffer) => .ok (.decValidate p buffer l)

/-- The bytes behind the start bytes `start`, which must match (R114: mask `FF` on each start byte). -/
def afterStart (start bs : List Byte) : Except Reject (List Byte) :=
  if start.isPrefixOf bs then .ok (bs.drop start.length) else .error .frameDoesNotMatch

/-- FRAME.STANDARD: the frame from its first start byte (R94). -/
def decodeStandard (bs : List Byte) : Except Reject Instr :=
  match afterStart Profile.standard.startBytes bs with
  | .error r => .error r
  | .ok (len :: m :: body) => .ok (.frameStandard len m body)
  | .ok _ => .error .operandsMissing

/-- FRAME.SENSOR: the optional L, then the frame from its start byte (R95). -/
def decodeSensor (bs : List Byte) : Except Reject Instr :=
  match decodeLookup bs with
  | .error r => .error r
  | .ok (l, rest) =>
    match afterStart Profile.sensor.startBytes rest with
    | .error r => .error r
    | .ok (m :: body) => .ok (.frameSensor l m body)
    | .ok [] => .error .operandsMissing

/-- FRAME.IPC: the optional L, then the frame (R96). -/
def decodeIpc (bs : List Byte) : Except Reject Instr :=
  match decodeLookup bs with
  | .error r => .error r
  | .ok (l, m :: body) => .ok (.frameIpc l m body)
  | .ok (_, []) => .error .operandsMissing

/-- FRAME.BULK: the frame from its first start byte (R97). -/
def decodeBulk (bs : List Byte) : Except Reject Instr :=
  match afterStart Profile.bulk.startBytes bs with
  | .error r => .error r
  | .ok (lo :: hi :: pk :: m :: body) => .ok (.frameBulk lo hi pk m body)
  | .ok _ => .error .operandsMissing

/-- FRAME.NETWORK: the frame from its first start byte (R98). -/
def decodeNetwork (bs : List Byte) : Except Reject Instr :=
  match afterStart Profile.network.startBytes bs with
  | .error r => .error r
  | .ok (sq :: sy :: co :: lo :: hi :: pk :: m :: body) => .ok (.frameNetwork sq sy co lo hi pk m body)
  | .ok _ => .error .operandsMissing

/-- FRAME.GENERIC: P, the optional L, then the frame from its first byte; "a decoder for such a profile is written from rules
R90 to R92" (R114). -/
def decodeGeneric (bs : List Byte) : Except Reject Instr :=
  match decodeProfile bs with
  | .error r => .error r
  | .ok (p, rest) =>
    match decodeLookup rest with
    | .error r => .error r
    | .ok (l, frame) =>
      match afterStart p.startBytes frame with
      | .error r => .error r
      | .ok rest =>
        if p.hdrLen ≤ rest.length then .ok (.frameGeneric p l (rest.take p.hdrLen) (rest.drop p.hdrLen))
        else .error .operandsMissing

/-- The rows of format op4, by select code (R110). -/
def decodeOp (code : Nat) (bs : List Byte) : Except Reject Instr :=
  match code with
  | 0x0 => decodeNoOperand .chkInit bs
  | 0x1 => decodeByteOperand .chkUpdate bs
  | 0x2 => .ok (.chkCompute bs)
  | 0x3 => decodeVerify bs
  | 0x4 => decodeProfileOperand .cfgHeaderSize bs
  | 0x5 => decodeProfileOperand .cfgMaxPayload bs
  | 0x6 => decodeProfileOperand .cfgOverhead bs
  | 0x7 => decodeEncode bs
  | 0x8 => decodeValidate bs
  | 0x9 => decodeByteOperand .sdecStep bs
  | 0xA => decodeNoOperand .sdecReset bs
  | 0xB => .ok (.acrPush bs)
  | 0xC => decodeNoOperand .acrNext bs
  | 0xD => decodeNoOperand .acrReset bs
  | n => .error (.undefinedSelectCode n)

/-- The rows of format state3, by state code (R111). -/
def decodeStateRow (code : Nat) (bs : List Byte) : Except Reject Instr :=
  match code with
  | 0 => decodeByteOperand .sdecStepLfs1 bs
  | 1 => decodeByteOperand .sdecStepLfs2 bs
  | 2 => decodeByteOperand .sdecStepHdr bs
  | 3 => decodeByteOperand .sdecStepPay bs
  | 4 => decodeByteOperand .sdecStepFtr bs
  | n => .error (.undefinedStateCode n)

/-- The rows of format frame, in the table's order (R114). -/
def decodeFrameRow (code : Nat) (bs : List Byte) : Except Reject Instr :=
  match code with
  | 0 => decodeStandard bs
  | 1 => decodeSensor bs
  | 2 => decodeIpc bs
  | 3 => decodeBulk bs
  | 4 => decodeNetwork bs
  | 5 => decodeGeneric bs
  | n => .error (.undefinedFrameRow n)

/-- The decoder of a request: total, rejecting by name. -/
def decode : List Byte → Except Reject Instr
  | [] => .error .emptyRequest
  | sel :: bs =>
    match sel.toNat / 16 with
    | 0 => decodeOp (sel.toNat % 16) bs
    | 1 => decodeStateRow (sel.toNat % 16) bs
    | 2 => decodeFrameRow (sel.toNat % 16) bs
    | n => .error (.undefinedFormat n)

/-! ### The encoder -/

/-- The first byte of a request: the row's format and code. -/
def Instr.selector : Instr → Byte
  | .chkInit => 0x00
  | .chkUpdate _ => 0x01
  | .chkCompute _ => 0x02
  | .chkVerify _ _ _ => 0x03
  | .cfgHeaderSize _ => 0x04
  | .cfgMaxPayload _ => 0x05
  | .cfgOverhead _ => 0x06
  | .encEncode _ _ _ _ _ _ _ => 0x07
  | .decValidate _ _ _ => 0x08
  | .sdecStep _ => 0x09
  | .sdecReset => 0x0A
  | .acrPush _ => 0x0B
  | .acrNext => 0x0C
  | .acrReset => 0x0D
  | .sdecStepLfs1 _ => 0x10
  | .sdecStepLfs2 _ => 0x11
  | .sdecStepHdr _ => 0x12
  | .sdecStepPay _ => 0x13
  | .sdecStepFtr _ => 0x14
  | .frameStandard _ _ _ => 0x20
  | .frameSensor _ _ _ => 0x21
  | .frameIpc _ _ _ => 0x22
  | .frameBulk _ _ _ _ _ => 0x23
  | .frameNetwork _ _ _ _ _ _ _ _ => 0x24
  | .frameGeneric _ _ _ _ => 0x25

/-- A truth value as a byte. -/
def encodeBool (b : Bool) : Byte := if b then 1 else 0

/-- A profile as eleven bytes, as `decodeProfile` reads them. -/
def encodeProfile (p : Profile) : List Byte :=
  [BitVec.ofNat 8 p.nStart, p.start1, p.start2, encodeBool p.hasSequence, encodeBool p.hasSystemId,
   encodeBool p.hasComponentId, encodeBool p.hasLength, BitVec.ofNat 8 p.lengthWidth, encodeBool p.hasPackageId,
   BitVec.ofNat 8 p.footerSize, BitVec.ofNat 8 (p.storedHeaderSize - 1)]

/-- One entry of a lookup table. -/
def encodeEntry (e : Byte × Nat) : List Byte :=
  [e.1, BitVec.ofNat 8 e.2, BitVec.ofNat 8 (e.2 / 256), BitVec.ofNat 8 (e.2 / 65536), BitVec.ofNat 8 (e.2 / 16777216)]

/-- An optional lookup, as `decodeLookup` reads it. -/
def encodeLookup : Option Lookup → List Byte
  | none => [0]
  | some l => 1 :: BitVec.ofNat 8 l.length :: BitVec.ofNat 8 (l.length / 256) :: l.flatMap encodeEntry

/-- The operand bytes of a request. -/
def encodeOperands : Instr → List Byte
  | .chkInit => []
  | .chkUpdate b => [b]
  | .chkCompute bs => bs
  | .chkVerify bs f0 f1 => f0 :: f1 :: bs
  | .cfgHeaderSize p => encodeProfile p
  | .cfgMaxPayload p => encodeProfile p
  | .cfgOverhead p => encodeProfile p
  | .encEncode p m payload sq sy co pk => encodeProfile p ++ m :: sq :: sy :: co :: pk :: payload
  | .decValidate p buffer l => encodeProfile p ++ (encodeLookup l ++ buffer)
  | .sdecStep b => [b]
  | .sdecReset => []
  | .acrPush bytes => bytes
  | .acrNext => []
  | .acrReset => []
  | .sdecStepLfs1 b => [b]
  | .sdecStepLfs2 b => [b]
  | .sdecStepHdr b => [b]
  | .sdecStepPay b => [b]
  | .sdecStepFtr b => [b]
  | .frameStandard len m body => Profile.standard.startBytes ++ len :: m :: body
  | .frameSensor l m body => encodeLookup l ++ (Profile.sensor.startBytes ++ m :: body)
  | .frameIpc l m body => encodeLookup l ++ m :: body
  | .frameBulk lo hi pk m body => Profile.bulk.startBytes ++ lo :: hi :: pk :: m :: body
  | .frameNetwork sq sy co lo hi pk m body => Profile.network.startBytes ++ sq :: sy :: co :: lo :: hi :: pk :: m :: body
  | .frameGeneric p l fields body => encodeProfile p ++ (encodeLookup l ++ (p.startBytes ++ (fields ++ body)))

/-- The request of an instruction. -/
def encode (i : Instr) : List Byte := i.selector :: encodeOperands i

/-! ### The words of the opcode table -/

/-- The bytes of a number, most significant byte first: the table writes a frame row's `match` "in wire order, byte 0
leftmost" (R114). -/
def bytesBigEndian : Nat → Nat → List Byte
  | 0, _ => []
  | k + 1, w => BitVec.ofNat 8 (w / 256 ^ k) :: bytesBigEndian k w

/-- The operand bytes of zeros that a row of format op4 needs behind its select code. -/
def zeroOperands (code : Nat) : List Byte :=
  match code with
  | 0x1 => [0]
  | 0x3 => [0, 0]
  | 0x4 => List.replicate 11 0
  | 0x5 => List.replicate 11 0
  | 0x6 => List.replicate 11 0
  | 0x7 => List.replicate 16 0
  | 0x8 => List.replicate 12 0
  | 0x9 => [0]
  | _ => []

/-- The request that stands for a word of the opcode table, its operands zeros. The width tells the row's format: 4 bits (in
whole bytes 8) a select code of format op4, 3 bits a state code, 16, 32, 48 and 72 bits the header of a Sensor, Standard,
Bulk and Network frame in wire order, and no bits a frame of IPC, whose format fixes none (R96; log 17). -/
def tableRequest (nbits w : Nat) : List Byte :=
  match nbits with
  | 0 => [0x22, 0, 0]
  | 3 => [BitVec.ofNat 8 (16 + w), 0]
  | 4 => BitVec.ofNat 8 w :: zeroOperands w
  | 8 => BitVec.ofNat 8 w :: zeroOperands w
  | 16 => 0x21 :: 0 :: bytesBigEndian 2 w
  | 32 => 0x20 :: bytesBigEndian 4 w
  | 48 => 0x23 :: bytesBigEndian 6 w
  | 72 => 0x24 :: bytesBigEndian 9 w
  | _ => []

/-- The instruction the decoder reads from a word of the opcode table. -/
def decodeTableWord (nbits w : Nat) : Option Instr := (decode (tableRequest nbits w)).toOption

end Sys2Proof
end

