-- ==== Sys2Proof/Machine/State.lean ====
section
/-!
DEFINITION. The state of the machine, every piece of it the spec gives (10_state.md R20 to R40), the results of operations
(R34, R35), the error kinds (60_exceptions.md R220), the reasons a step can stop, and the state after reset (R40).
-/

namespace Sys2Proof.Machine

/-- The accumulators of the CHK unit (R25). -/
structure Chk where
  c0 : Byte
  c1 : Byte
deriving DecidableEq, Repr

/-- SDEC's sequencing register, five values in lifecycle order (R27). -/
inductive SdecState where
  /-- LookingForStart1. -/
  | lfs1
  /-- LookingForStart2. -/
  | lfs2
  /-- ParsingHeader. -/
  | hdr
  /-- ParsingPayload. -/
  | pay
  /-- ParsingFooter. -/
  | ftr
deriving DecidableEq, Repr

/-- The state of an SDEC instance, complete (R28). -/
structure Sdec where
  state            : SdecState
  cursor           : Nat
  payloadRemaining : Nat
  footerRemaining  : Nat
  buf              : List Byte
  seq              : Byte
  sysId            : Byte
  compId           : Byte
  lenField         : BitVec 16
  pkgId            : Byte
  msgId            : Byte
  payloadLen       : Nat
deriving DecidableEq, Repr

/-- The idle state: LFS1 with everything else empty or zero (R40, R182). -/
def Sdec.idle : Sdec where
  state := .lfs1
  cursor := 0
  payloadRemaining := 0
  footerRemaining := 0
  buf := []
  seq := 0
  sysId := 0
  compId := 0
  lenField := 0
  pkgId := 0
  msgId := 0
  payloadLen := 0

/-- The state of an ACR instance (R32). -/
structure Acr where
  dec   : Sdec
  queue : List Byte
deriving DecidableEq, Repr

/-- What is constant for the life of a connection: `P` and `L` (R20, R24, R79). No operation writes it. -/
structure Connection where
  profile : Profile
  lookup  : Lookup
deriving DecidableEq, Repr

/-- The five error kinds of R220, with the two names of kind 2 apart. A label of the functions that raise it, never part of
State or of a result (R227). -/
inductive ErrorKind where
  | payloadTooLarge
  | bufferTooShort
  | truncated
  | invalidStartBytes
  | checksumMismatch
  | unknownMessageLength
deriving DecidableEq, Repr

/-- The contents of a FrameParseResult with `valid = true` (R34). -/
structure Parsed where
  msgId      : BitVec 32
  pkgId      : Byte
  payload    : List Byte
  payloadLen : BitVec 32
deriving DecidableEq, Repr

/-- The result of an operation (R34, R35, R37). -/
inductive Result where
  /-- No result: CHK.INIT, CHK.UPDATE, SDEC.RESET, ACR.PUSH, ACR.RESET, and no operation yet. -/
  | none
  /-- The pair `(c0, c1)` of CHK.COMPUTE. -/
  | checksum (c0 c1 : Byte)
  /-- The boolean of CHK.VERIFY. -/
  | verified (ok : Bool)
  /-- The natural of a CFG operation. -/
  | size (n : Nat)
  /-- "unbounded" of CFG.MAX_PAYLOAD. -/
  | unbounded
  /-- The complete frame ENC.ENCODE built. -/
  | frame (bytes : List Byte)
  /-- `Failure(PayloadTooLarge)` of ENC.ENCODE. -/
  | failurePayloadTooLarge
  /-- A FrameParseResult: `none` is `INVALID`, which has no other fields (R14, D9). -/
  | parse (r : Option Parsed)
  /-- `Empty` of ACR.NEXT. -/
  | empty
deriving DecidableEq, Repr

/-- The state of the machine: one CHK, one SDEC and one ACR instance (R7), the configuration of the two connections, and the
two ends of the operation interface. -/
structure State where
  /-- The CHK unit (R25). -/
  chk : Chk
  /-- The SDEC instance (R28). -/
  sdec : Sdec
  /-- `P` and `L` of the SDEC instance (R20, R24). -/
  sdecConn : Connection
  /-- The ACR instance (R32). -/
  acr : Acr
  /-- `P` and `L` of the ACR instance (R20, R24, R210). -/
  acrConn : Connection
  /-- The operations the environment has issued and the machine has not performed, oldest first (log 3). -/
  requests : List (List Byte)
  /-- The result of the last operation performed (log 5). -/
  result : Result
deriving DecidableEq, Repr

/-- No operation faults: "no operation has a fault, stuck or refused outcome on any operand values within the domain" (R226),
"There is no panic/abort path for malformed input". The type is empty (log 18). -/
inductive Fault where
deriving DecidableEq, Repr

/-- Why an operation is refused, all at the boundary of the codec (R226). -/
inductive Refusal where
  /-- Raised by exec for an instruction the model gives no meaning yet; safe. No arm does. -/
  | notModelled (mnemonic : String)
  /-- Raised by step for a request that decodes to no instruction (R110, R107); safe. -/
  | badRequest (r : Reject)
  /-- Raised by an operation whose `P` is not well-formed: "no operation ever sees one" (R107, R141, U3); safe. -/
  | illFormedConfiguration
  /-- Raised by ENC.ENCODE for a lengthless payload longer than `PAYLOAD_CAP`, and by a decoder of a lengthless profile whose
  `L` answers beyond it: "refused at the interface and is outside the spec" (R8, R24, R151, U4); safe. -/
  | capacityExceeded
deriving DecidableEq, Repr

/-- The machine after power-on for two connections: every element at the value of R40, which `P` and `L` are no part of. -/
def State.powerOn (sdecConn acrConn : Connection) : State where
  chk := ⟨0, 0⟩
  sdec := Sdec.idle
  sdecConn := sdecConn
  acr := ⟨Sdec.idle, []⟩
  acrConn := acrConn
  requests := []
  result := .none

/-- The machine right after reset (R40), for the profile Standard and the omitted lookup (DESIGN CHOICE, log 6: the spec
fixes no `P`; unsafe for a claim that leans on this one). -/
def State.reset : State := State.powerOn ⟨Profile.standard, []⟩ ⟨Profile.standard, []⟩

end Sys2Proof.Machine
end

