-- ==== Sys2Proof/Machine/Checksum.lean ====
section
/-!
DEFINITION. The checksum function every unit uses (40_checksum.md R130): two 8-bit accumulators, modulo 256 (conflict C1).
-/

namespace Sys2Proof.Machine

/-- One byte of the range: `c1` adds the `c0` just written (R130, R132). -/
def fletcherByte (c : Chk) (b : Byte) : Chk :=
  { c0 := c.c0 + b, c1 := c.c1 + (c.c0 + b) }

/-- `fletcher(bs)` (R130). -/
def fletcher (bs : List Byte) : Chk := bs.foldl fletcherByte ⟨0, 0⟩

end Sys2Proof.Machine
end

