-- ==== Sys2Proof/Machine/Operands.lean ====
section
/-!
DEFINITION. The operand forms of the codec: bytes and slices of a byte sequence, the offsets of the frame layout, and the
assembly and splitting of the length field (00_scope.md R11, 30_encoding.md R92, R99 to R105).
-/

namespace Sys2Proof.Machine

/-- `s[i]`, defined by R11 for an index below `len(s)`; the operations read no other (R68, R172), and the value 0 elsewhere
only makes the function total (log 12). -/
def byteAt (s : List Byte) (i : Nat) : Byte := s.getD i 0

/-- `s[a .. b)` (R11). -/
def slice (s : List Byte) (a b : Nat) : List Byte := (s.drop a).take (b - a)

/-- `off_seq` (R92). -/
def offSeq (p : Profile) : Nat := p.nStart

/-- `off_sys` (R92). -/
def offSys (p : Profile) : Nat := p.nStart + p.hasSequence.toNat

/-- `off_comp` (R92). -/
def offComp (p : Profile) : Nat := p.nStart + p.hasSequence.toNat + p.hasSystemId.toNat

/-- `off_len` (R92). -/
def offLen (p : Profile) : Nat := p.nStart + p.hasSequence.toNat + p.hasSystemId.toNat + p.hasComponentId.toNat

/-- `off_pkg` (R92). -/
def offPkg (p : Profile) : Nat := offLen p + p.lenBytes

/-- `off_msg` (R92). -/
def offMsg (p : Profile) : Nat := offLen p + p.lenBytes + p.hasPackageId.toNat

/-- `total_size` (R92). -/
def totalSize (p : Profile) (payloadLen : Nat) : Nat := p.overhead + payloadLen

/-- `decode_len` (R100): one byte, or two with the low byte first; never sign-extended, scaled or offset. -/
def decodeLen (p : Profile) (s : List Byte) : Nat :=
  if p.lengthWidth = 2 then (byteAt s (offLen p)).toNat + 256 * (byteAt s (offLen p + 1)).toNat
  else (byteAt s (offLen p)).toNat

/-- The bytes of the length field for a payload of `n` bytes (R101). -/
def lengthBytes (p : Profile) (n : Nat) : List Byte :=
  if p.lengthWidth = 2 then [BitVec.ofNat 8 n, BitVec.ofNat 8 (n / 256)] else [BitVec.ofNat 8 n]

/-- One byte where the profile has the field, none where it has not: an operand of an absent field is ignored (R153). -/
def optByte (present : Bool) (b : Byte) : List Byte := if present then [b] else []

/-- The header of a frame: start bytes, then the header fields in the fixed order (R90, R93). -/
def headerBytes (p : Profile) (n : Nat) (msgId seq sysId compId pkgId : Byte) : List Byte :=
  p.startBytes ++ optByte p.hasSequence seq ++ optByte p.hasSystemId sysId ++ optByte p.hasComponentId compId ++
  (if p.hasLength then lengthBytes p n else []) ++ optByte p.hasPackageId pkgId ++ [msgId]

/-- Every configured start byte matches at its fixed offset (R99, R162). -/
def startBytesMatch (p : Profile) (s : List Byte) : Bool :=
  (decide (p.nStart < 1) || byteAt s 0 == p.start1) && (decide (p.nStart ≠ 2) || byteAt s 1 == p.start2)

/-- The payload length a complete header declares: its length field, or the answer of `L` for its msg_id byte (R106, R164).
-/
def payloadLength (p : Profile) (l : Lookup) (s : List Byte) : Option Nat :=
  if p.hasLength then some (decodeLen p s) else lookupLength l (byteAt s (offMsg p))

/-- The package-id byte, 0 for a profile without one (R165). -/
def pkgIdOf (p : Profile) (s : List Byte) : Byte := if p.hasPackageId then byteAt s (offPkg p) else 0

/-- The checksummed range of a frame of `total` bytes: after the start bytes, before the footer (R134). -/
def checksummedRange (p : Profile) (s : List Byte) (total : Nat) : List Byte := slice s p.nStart (total - p.footerSize)

end Sys2Proof.Machine
end

