-- ==== Sys2Proof/Machine/Flags.lean ====
section
/-!
DEFINITION. The codec's status outcomes: the `valid` bit and the record behind it (10_state.md R34), and the checksum
predicate that decides it (40_checksum.md R135).
-/

namespace Sys2Proof.Machine

/-- `VALID(m, k, p)` (R14): `msg_id` zero-extended, `payload_len = len(payload)`. -/
def validFrame (m k : Byte) (payload : List Byte) : Parsed where
  msgId := zext32 m
  pkgId := k
  payload := payload
  payloadLen := BitVec.ofNat 32 payload.length

/-- Both bytes of a received footer equal the pair recomputed over `bs`: "byte-exact equality with both footer bytes" (R135).
-/
def footerMatches (bs : List Byte) (f0 f1 : Byte) : Bool := (fletcher bs).c0 == f0 && (fletcher bs).c1 == f1

/-- `checksum_ok(P, s, total)` (R135). -/
def checksumOk (p : Profile) (s : List Byte) (total : Nat) : Bool :=
  footerMatches (checksummedRange p s total) (byteAt s (total - 2)) (byteAt s (total - 1))

end Sys2Proof.Machine
end

