-- ==== Sys2Proof/Machine/Ops.lean ====
section
/-!
DEFINITION. The operations over the state that the meanings share: completing an operation, the admission of a configuration,
the full reset, raising an error in SDEC and completing a frame (44_streaming_decoder.md R182, R190, 60_exceptions.md R229).
-/

namespace Sys2Proof.Machine

/-- What an operation answers. -/
abbrev Answer := Host.Outcome State Fault Refusal

/-- An operation completes with result `r`; its effect on the units is already in `s` (R9: result and next state together).
-/
def complete (s : State) (r : Result) : Answer := .next { s with result := r }

/-- An operation on the profile `p` runs only for a well-formed one (R107, R141, U3). -/
def withProfile (p : Profile) (k : Answer) : Answer :=
  if p.WF then k else .refused .illFormedConfiguration

/-- A decoding operation runs for a well-formed `P` and, where the profile has no length field and so reads `L`, an `L` whose
answers are at most `PAYLOAD_CAP` (R24, D6, U4). -/
def withDecoder (p : Profile) (l : Lookup) (k : Answer) : Answer :=
  withProfile p (if p.hasLength = true ∨ lookupFits l = true then k else .refused .capacityExceeded)

/-- `RESET_SDEC`: the full reset, whatever the state was (R182). -/
def fullReset (_ : Sdec) : Sdec := Sdec.idle

/-- What one SDEC.STEP gives: the next state of the instance, the result, and the error kind as a label that no state holds
(R227). -/
structure StepOut where
  dec   : Sdec
  res   : Option Parsed
  label : Option ErrorKind
deriving DecidableEq, Repr

/-- The byte ends no frame: `INVALID`, with the next state `d` (R191). -/
def accumulate (d : Sdec) : StepOut := ⟨d, none, none⟩

/-- Taking an error in SDEC outside LFS1: the full reset, `INVALID`, nothing saved (R229). It is the counterpart of exception
entry; there is no return operation, the next byte is decoded from the idle state (R230). -/
def raiseReset (d : Sdec) (k : ErrorKind) : StepOut := ⟨fullReset d, none, some k⟩

/-- The error of a byte in LFS1: the byte is dropped and the state stays (R183, R229). -/
def raiseDiscard (d : Sdec) (k : ErrorKind) : StepOut := ⟨d, none, some k⟩

/-- Completion (R190): the checksum over the accumulated buffer, then the result, formed before the reset clears the buffer.
-/
def completeFrame (p : Profile) (d : Sdec) : StepOut :=
  if 0 < p.footerSize ∧ checksumOk p d.buf d.buf.length = false then raiseReset d .checksumMismatch
  else ⟨fullReset d, some (validFrame d.msgId d.pkgId (slice d.buf p.headerSize (p.headerSize + d.payloadLen))), none⟩

end Sys2Proof.Machine
end

