-- ==== Sys2Proof/Machine/StreamingDecoder.lean ====
section
/-!
DEFINITION. The per-byte rules of the streaming decoder, one per value of its state register (44_streaming_decoder.md R183 to
R190), SDEC.STEP that dispatches to them (R181), SDEC.RESET (R193), and the state rows of the table (R111, R114).
-/

namespace Sys2Proof.Machine

/-- The header-field register a tag names takes the byte (R186). -/
def writeField (d : Sdec) (t : Tag) (b : Byte) : Sdec :=
  match t with
  | .seq => { d with seq := b }
  | .sys => { d with sysId := b }
  | .comp => { d with compId := b }
  | .len0 => { d with lenField := b.setWidth 16 }
  | .len1 => { d with lenField := d.lenField + 256#16 * b.setWidth 16 }
  | .pkg => { d with pkgId := b }
  | .msg => { d with msgId := b }

/-- The field the cursor points at takes the byte; a cursor past the header, which no run reaches (R39), names none (log 14).
-/
def writeAtCursor (p : Profile) (d : Sdec) (b : Byte) : Sdec :=
  match p.fields[d.cursor]? with
  | some t => writeField d t b
  | none => d

/-- End of header with the payload length `n` known: the second half of R187. -/
def startPayload (p : Profile) (d : Sdec) (n : Nat) : StepOut :=
  let d' := { d with payloadLen := n, payloadRemaining := n, footerRemaining := p.footerSize }
  if 0 < n then accumulate { d' with state := .pay }
  else if 0 < p.footerSize then accumulate { d' with state := .ftr }
  else completeFrame p d'

/-- End of header (R187). -/
def endHeader (p : Profile) (l : Lookup) (d : Sdec) : StepOut :=
  if p.hasLength then startPayload p d d.lenField.toNat
  else
    match lookupLength l d.msgId with
    | none => raiseReset d .unknownMessageLength
    | some n => startPayload p d n

/-- State HDR (R186): append, store the field, advance the cursor; at the end of the header go on with R187. -/
def stepHdr (p : Profile) (l : Lookup) (d : Sdec) (b : Byte) : StepOut :=
  let d' := { writeAtCursor p { d with buf := d.buf ++ [b] } b with cursor := d.cursor + 1 }
  if d.cursor + 1 = p.hdrLen then endHeader p l d' else accumulate d'

/-- State LFS1 (R183); for a profile without start bytes the byte is the first header-field byte (R184, D11). -/
def stepLfs1 (p : Profile) (l : Lookup) (d : Sdec) (b : Byte) : StepOut :=
  if p.nStart = 0 then stepHdr p l { d with buf := [], cursor := 0, state := .hdr } b
  else if b = p.start1 then accumulate { d with buf := [b], cursor := 0, state := if p.nStart = 2 then .lfs2 else .hdr }
  else raiseDiscard d .invalidStartBytes

/-- State LFS2 (R185), its tests in the source's order. -/
def stepLfs2 (p : Profile) (d : Sdec) (b : Byte) : StepOut :=
  if b = p.start2 then accumulate { d with buf := d.buf ++ [b], cursor := 0, state := .hdr }
  else if b = p.start1 then accumulate { d with buf := [b], state := .lfs2 }
  else raiseReset d .invalidStartBytes

/-- State PAY (R188). -/
def stepPay (p : Profile) (d : Sdec) (b : Byte) : StepOut :=
  let d' := { d with buf := d.buf ++ [b], payloadRemaining := d.payloadRemaining - 1 }
  if d'.payloadRemaining = 0 then
    if 0 < d.footerRemaining then accumulate { d' with state := .ftr } else completeFrame p d'
  else accumulate d'

/-- State FTR (R189). -/
def stepFtr (p : Profile) (d : Sdec) (b : Byte) : StepOut :=
  let d' := { d with buf := d.buf ++ [b], footerRemaining := d.footerRemaining - 1 }
  if d'.footerRemaining = 0 then completeFrame p d' else accumulate d'

/-- SDEC.STEP on an instance (R181). -/
def sdecStep (p : Profile) (l : Lookup) (d : Sdec) (b : Byte) : StepOut :=
  match d.state with
  | .lfs1 => stepLfs1 p l d b
  | .lfs2 => stepLfs2 p d b
  | .hdr => stepHdr p l d b
  | .pay => stepPay p d b
  | .ftr => stepFtr p d b

/-- A per-byte rule takes effect on the machine's SDEC instance, whose own `P` and `L` it uses. -/
def sdecByte (o : StepOut) (s : State) : Answer :=
  withDecoder s.sdecConn.profile s.sdecConn.lookup (complete { s with sdec := o.dec } (.parse o.res))

/-- SDEC.STEP(b) (R181). -/
def execSdecStep (b : Byte) (s : State) : Answer := sdecByte (sdecStep s.sdecConn.profile s.sdecConn.lookup s.sdec b) s

/-- SDEC.RESET (R193). -/
def execSdecReset (s : State) : Answer := complete { s with sdec := fullReset s.sdec } .none

/-- A byte offered by way of a state row of the table. The row's rule takes it where the state register holds the row's code;
elsewhere the byte goes where SDEC.STEP's dispatch sends it, since which rule applies is selected by the register alone (R181)
and no answer may tell the environment what the register holds (R36; log 2). -/
def stepByRow (q : SdecState) (rule : StepOut) (b : Byte) (s : State) : Answer :=
  sdecByte (if s.sdec.state = q then rule else sdecStep s.sdecConn.profile s.sdecConn.lookup s.sdec b) s

/-- SDEC.STEP@LFS1 (R183, R184). -/
def execSdecStepLfs1 (b : Byte) (s : State) : Answer :=
  stepByRow .lfs1 (stepLfs1 s.sdecConn.profile s.sdecConn.lookup s.sdec b) b s

/-- SDEC.STEP@LFS2 (R185). -/
def execSdecStepLfs2 (b : Byte) (s : State) : Answer :=
  stepByRow .lfs2 (stepLfs2 s.sdecConn.profile s.sdec b) b s

/-- SDEC.STEP@HDR (R186, R187). -/
def execSdecStepHdr (b : Byte) (s : State) : Answer :=
  stepByRow .hdr (stepHdr s.sdecConn.profile s.sdecConn.lookup s.sdec b) b s

/-- SDEC.STEP@PAY (R188). -/
def execSdecStepPay (b : Byte) (s : State) : Answer :=
  stepByRow .pay (stepPay s.sdecConn.profile s.sdec b) b s

/-- SDEC.STEP@FTR (R189). -/
def execSdecStepFtr (b : Byte) (s : State) : Answer :=
  stepByRow .ftr (stepFtr s.sdecConn.profile s.sdec b) b s

end Sys2Proof.Machine
end

