-- ==== Sys2Proof/Machine/AccumulatingReader.lean ====
section
/-!
DEFINITION. The accumulating reader (45_accumulating_reader.md R210 to R215).
-/

namespace Sys2Proof.Machine

/-- The loop of ACR.NEXT (R212): bytes leave the head of the queue one at a time into the decoder until a result is valid or
the queue is empty. It gives the decoder, what is left of the queue, and the valid result (`none` is `Empty`). -/
def drainQueue (p : Profile) (l : Lookup) (d : Sdec) : List Byte → Sdec × List Byte × Option Parsed
  | [] => (d, [], none)
  | b :: q =>
    let o := sdecStep p l d b
    match o.res with
    | some r => (o.dec, q, some r)
    | none => drainQueue p l o.dec q

/-- The result of ACR.NEXT: a FrameParseResult with `valid = true`, or `Empty` (R35). -/
def nextResult : Option Parsed → Result
  | some r => .parse (some r)
  | none => .empty

/-- ACR.PUSH(bytes) (R211); the queue is unbounded (R73, log 9). -/
def execAcrPush (bytes : List Byte) (s : State) : Answer :=
  complete { s with acr := { s.acr with queue := s.acr.queue ++ bytes } } .none

/-- ACR.NEXT() (R212). -/
def execAcrNext (s : State) : Answer :=
  let o := drainQueue s.acrConn.profile s.acrConn.lookup s.acr.dec s.acr.queue
  withDecoder s.acrConn.profile s.acrConn.lookup
    (complete { s with acr := { dec := o.1, queue := o.2.1 } } (nextResult o.2.2))

/-- ACR.RESET() (R213). -/
def execAcrReset (s : State) : Answer :=
  complete { s with acr := { dec := fullReset s.acr.dec, queue := [] } } .none

end Sys2Proof.Machine
end

