-- ==== Sys2Proof/Machine/Cfg.lean ====
section
/-!
DEFINITION. The computations on the configuration as operations (41_profile_sizing.md R142 to R144).
-/

namespace Sys2Proof.Machine

/-- CFG.HEADER_SIZE(P) (R142). -/
def execCfgHeaderSize (p : Profile) (s : State) : Answer := withProfile p (complete s (.size p.headerSize))

/-- CFG.MAX_PAYLOAD(P) (R143). -/
def execCfgMaxPayload (p : Profile) (s : State) : Answer :=
  withProfile p (complete s (match p.maxPayload with | some n => .size n | none => .unbounded))

/-- CFG.OVERHEAD(P) (R144). -/
def execCfgOverhead (p : Profile) (s : State) : Answer := withProfile p (complete s (.size p.overhead))

end Sys2Proof.Machine
end

