-- ==== Sys2Proof/Machine/Chk.lean ====
section
/-!
DEFINITION. The checksum engine's operations (40_checksum.md R131 to R135).
-/

namespace Sys2Proof.Machine

/-- CHK.INIT (R131). -/
def execChkInit (s : State) : Answer := complete { s with chk := ⟨0, 0⟩ } .none

/-- CHK.UPDATE(b) (R132). -/
def execChkUpdate (b : Byte) (s : State) : Answer := complete { s with chk := fletcherByte s.chk b } .none

/-- CHK.COMPUTE(bs) (R133): the registers take the pair that is returned. -/
def execChkCompute (bs : List Byte) (s : State) : Answer :=
  complete { s with chk := fletcher bs } (.checksum (fletcher bs).c0 (fletcher bs).c1)

/-- CHK.VERIFY(bs, f0, f1) (R135): the registers take the recomputed pair. -/
def execChkVerify (bs : List Byte) (f0 f1 : Byte) (s : State) : Answer :=
  complete { s with chk := fletcher bs } (.verified (footerMatches bs f0 f1))

end Sys2Proof.Machine
end

