-- ==== Sys2Proof/Machine/Enc.lean ====
section
/-!
DEFINITION. The encoder (42_encoder.md R150 to R155).
-/

namespace Sys2Proof.Machine

/-- Step 0 of R150: the length field cannot hold the payload length (R151); the bound is strict and a lengthless profile
never fails this way. -/
def payloadTooLarge (p : Profile) (n : Nat) : Bool :=
  match p.maxPayload with
  | some m => decide (m < n)
  | none => false

/-- Steps 1 to 7 of R150: the frame before its footer. -/
def frameBody (p : Profile) (msgId : Byte) (payload : List Byte) (seq sysId compId pkgId : Byte) : List Byte :=
  headerBytes p payload.length msgId seq sysId compId pkgId ++ payload

/-- Step 8 of R150: the footer `c0, c1` over everything after the start bytes (R104). -/
def footerBytes (p : Profile) (body : List Byte) : List Byte :=
  if 0 < p.footerSize then [(fletcher (body.drop p.nStart)).c0, (fletcher (body.drop p.nStart)).c1] else []

/-- The frame ENC.ENCODE builds, or the error it raises (R150). -/
def encodeFrame (p : Profile) (msgId : Byte) (payload : List Byte) (seq sysId compId pkgId : Byte) :
    Except ErrorKind (List Byte) :=
  if payloadTooLarge p payload.length then .error .payloadTooLarge
  else
    let body := frameBody p msgId payload seq sysId compId pkgId
    .ok (body ++ footerBytes p body)

/-- The result of ENC.ENCODE: the frame, or `Failure(PayloadTooLarge)` (R35, R221). -/
def encodeResult : Except ErrorKind (List Byte) → Result
  | .ok f => .frame f
  | .error _ => .failurePayloadTooLarge

/-- ENC.ENCODE (R150). A lengthless payload longer than `PAYLOAD_CAP` is "refused at the interface" (R151, D7). -/
def execEncEncode (p : Profile) (msgId : Byte) (payload : List Byte) (seq sysId compId pkgId : Byte) (s : State) : Answer :=
  withProfile p
    (if p.hasLength = true ∨ withinPayloadCap payload.length = true then
      complete s (encodeResult (encodeFrame p msgId payload seq sysId compId pkgId))
    else .refused .capacityExceeded)

end Sys2Proof.Machine
end

