-- ==== Sys2Proof/Machine/Dec.lean ====
section
/-!
DEFINITION. The one-shot decoder (43_oneshot_decoder.md R160 to R173).
-/

namespace Sys2Proof.Machine

/-- The nine steps of R160, "short-circuiting to valid=false at the first failing check"; the error kind is the label of the
failing check (R228). Step 3 reads values no step uses (R163); `L` is asked with the msg_id byte (R164, conflict C2). -/
def validate (p : Profile) (buffer : List Byte) (l : Lookup) : Except ErrorKind Parsed :=
  if buffer.length < p.overhead then .error .bufferTooShort
  else if startBytesMatch p buffer = false then .error .invalidStartBytes
  else
    match payloadLength p l buffer with
    | none => .error .unknownMessageLength
    | some n =>
      if buffer.length < totalSize p n then .error .truncated
      else if 0 < p.footerSize ∧ checksumOk p buffer (totalSize p n) = false then .error .checksumMismatch
      else .ok (validFrame (byteAt buffer (offMsg p)) (pkgIdOf p buffer) (slice buffer p.headerSize (p.headerSize + n)))

/-- The FrameParseResult of a validation: every error kind is the same `INVALID` (R160, R227). -/
def validateResult (p : Profile) (buffer : List Byte) (l : Lookup) : Option Parsed := (validate p buffer l).toOption

/-- A frame given to the one-shot decoder; an omitted lookup answers `none` for every byte (R112). -/
def validateOp (p : Profile) (buffer : List Byte) (l : Option Lookup) (s : State) : Answer :=
  withDecoder p (l.getD []) (complete s (.parse (validateResult p buffer (l.getD []))))

/-- DEC.VALIDATE(P, buffer, L?) (R160). -/
def execDecValidate (p : Profile) (buffer : List Byte) (l : Option Lookup) (s : State) : Answer := validateOp p buffer l s

end Sys2Proof.Machine
end

