-- ==== Sys2Proof/Machine/Frame.lean ====
section
/-!
DEFINITION. The frame rows of the table: a frame of the row's format, recognised by the one-shot decoder under the row's
profile (30_encoding.md R90 to R98, R114; log 1).
-/

namespace Sys2Proof.Machine

/-- FRAME.STANDARD (R94): `0x90 0x71 length msg_id`, then payload and footer. -/
def execFrameStandard (len msgId : Byte) (body : List Byte) (s : State) : Answer :=
  validateOp Profile.standard (Profile.standard.startBytes ++ len :: msgId :: body) none s

/-- FRAME.SENSOR (R95): `0x70 msg_id`, then the payload. -/
def execFrameSensor (l : Option Lookup) (msgId : Byte) (body : List Byte) (s : State) : Answer :=
  validateOp Profile.sensor (Profile.sensor.startBytes ++ msgId :: body) l s

/-- FRAME.IPC (R96): `msg_id`, then the payload. -/
def execFrameIpc (l : Option Lookup) (msgId : Byte) (body : List Byte) (s : State) : Answer :=
  validateOp Profile.ipc (Profile.ipc.startBytes ++ msgId :: body) l s

/-- FRAME.BULK (R97): `0x90 0x74`, the length low byte first, package_id, msg_id, then payload and footer. -/
def execFrameBulk (lenLo lenHi pkgId msgId : Byte) (body : List Byte) (s : State) : Answer :=
  validateOp Profile.bulk (Profile.bulk.startBytes ++ lenLo :: lenHi :: pkgId :: msgId :: body) none s

/-- FRAME.NETWORK (R98): `0x90 0x78`, sequence, system_id, component_id, the length low byte first, package_id, msg_id, then
payload and footer. -/
def execFrameNetwork (seq sysId compId lenLo lenHi pkgId msgId : Byte) (body : List Byte) (s : State) : Answer :=
  validateOp Profile.network
    (Profile.network.startBytes ++ seq :: sysId :: compId :: lenLo :: lenHi :: pkgId :: msgId :: body) none s

/-- FRAME.GENERIC (R90, R114): the start bytes and header fields of any profile, then payload and footer. -/
def execFrameGeneric (p : Profile) (l : Option Lookup) (fields body : List Byte) (s : State) : Answer :=
  validateOp p (p.startBytes ++ (fields ++ body)) l s

end Sys2Proof.Machine
end

