-- ==== Sys2Proof/Machine/Dispatch.lean ====
section
/-!
DEFINITION. One arm per constructor of `Instr`: each row of spec/opcode_table.json and its meaning.
-/

namespace Sys2Proof.Machine

def exec (i : Instr) (s : State) : Host.Outcome State Fault Refusal :=
  match i with
  | .chkInit => Sys2Proof.Machine.execChkInit s
  | .chkUpdate b => Sys2Proof.Machine.execChkUpdate b s
  | .chkCompute bs => Sys2Proof.Machine.execChkCompute bs s
  | .chkVerify bs f0 f1 => Sys2Proof.Machine.execChkVerify bs f0 f1 s
  | .cfgHeaderSize p => Sys2Proof.Machine.execCfgHeaderSize p s
  | .cfgMaxPayload p => Sys2Proof.Machine.execCfgMaxPayload p s
  | .cfgOverhead p => Sys2Proof.Machine.execCfgOverhead p s
  | .encEncode p msgId payload seq sysId compId pkgId => Sys2Proof.Machine.execEncEncode p msgId payload seq sysId compId pkgId s
  | .decValidate p buffer l => Sys2Proof.Machine.execDecValidate p buffer l s
  | .sdecStep b => Sys2Proof.Machine.execSdecStep b s
  | .sdecReset => Sys2Proof.Machine.execSdecReset s
  | .acrPush bytes => Sys2Proof.Machine.execAcrPush bytes s
  | .acrNext => Sys2Proof.Machine.execAcrNext s
  | .acrReset => Sys2Proof.Machine.execAcrReset s
  | .frameStandard len msgId body => Sys2Proof.Machine.execFrameStandard len msgId body s
  | .frameSensor l msgId body => Sys2Proof.Machine.execFrameSensor l msgId body s
  | .frameIpc l msgId body => Sys2Proof.Machine.execFrameIpc l msgId body s
  | .frameBulk lenLo lenHi pkgId msgId body => Sys2Proof.Machine.execFrameBulk lenLo lenHi pkgId msgId body s
  | .frameNetwork seq sysId compId lenLo lenHi pkgId msgId body => Sys2Proof.Machine.execFrameNetwork seq sysId compId lenLo lenHi pkgId msgId body s
  | .frameGeneric p l fields body => Sys2Proof.Machine.execFrameGeneric p l fields body s
  | .sdecStepLfs1 b => Sys2Proof.Machine.execSdecStepLfs1 b s
  | .sdecStepLfs2 b => Sys2Proof.Machine.execSdecStepLfs2 b s
  | .sdecStepHdr b => Sys2Proof.Machine.execSdecStepHdr b s
  | .sdecStepPay b => Sys2Proof.Machine.execSdecStepPay b s
  | .sdecStepFtr b => Sys2Proof.Machine.execSdecStepFtr b s

end Sys2Proof.Machine
end

