-- ==== Sys2Proof/Machine/Fetch.lean ====
section
/-!
DEFINITION. The operation interface: which request the machine performs next (00_scope.md R9, 20_memory.md R74; log 3).
-/

namespace Sys2Proof.Machine

/-- The next request and the machine without it: operations are performed in the order they were issued (R74). -/
def takeRequest (s : State) : Option (List Byte × State) :=
  match s.requests with
  | [] => none
  | r :: rest => some (r, { s with requests := rest })

/-- The environment issues a request behind those it has issued before (R74). -/
def issueRequest (s : State) (r : List Byte) : State := { s with requests := s.requests ++ [r] }

/-- A request placed before all others, so that it is the next one performed. -/
def placeRequest (s : State) (r : List Byte) : State := { s with requests := r :: s.requests }

/-- The state a code of R111 names; the codes 5, 6 and 7 name none. -/
def stateOfCode (code : Nat) : Option SdecState :=
  match code with
  | 0 => some .lfs1
  | 1 => some .lfs2
  | 2 => some .hdr
  | 3 => some .pay
  | 4 => some .ftr
  | _ => none

/-- What selects a row of format state3 is SDEC's state register (R111, R114): for such a row, a word of 3 bits, the register
holds the row's code; every other row needs no selection (log 17). -/
def selectRow (s : State) (nbits w : Nat) : State :=
  match nbits, stateOfCode w with
  | 3, some q => { s with sdec := { s.sdec with state := q } }
  | _, _ => s

end Sys2Proof.Machine
end

