-- ==== Sys2Proof/Machine/Step.lean ====
section
/-!
DEFINITION. One step of the machine: the next request is taken, decoded and performed (00_scope.md R9, 20_memory.md R74; log
3).
-/

namespace Sys2Proof.Machine

/-- One step. With no request issued the machine stays as it is; a request that is no instruction is refused (R110). -/
def step (s : State) : Host.Outcome State Fault Refusal :=
  match takeRequest s with
  | none => .next s
  | some (r, s') =>
    match decode r with
    | .error e => .refused (.badRequest e)
    | .ok i => exec i s'

/-- `s` with a word of the opcode table, its operands zeros, as the next request, and the row selected where the state
register selects it (log 3, log 17). -/
def State.withFetchWord (s : State) (nbits w : Nat) : State := placeRequest (selectRow s nbits w) (tableRequest nbits w)

end Sys2Proof.Machine
end

