-- ==== Sys2Proof/Safety.lean ====
section
/-!
DEFINITION. The terms claims use: runs of operations, the sums of 40_checksum.md R137, the invariant of 10_state.md R39 and
its closure, and which operations touch which unit (00_scope.md R7).
-/

namespace Sys2Proof.Machine

/-! ### Runs -/

/-- A sequence of operations performed one after the other (R74), with the result of each; `none` where one is refused. -/
def performAll : List Instr → State → Option (State × List Result)
  | [], s => some (s, [])
  | i :: is, s =>
    match exec i s with
    | .next t => (performAll is t).map fun u => (u.1, t.result :: u.2)
    | _ => none

/-- A byte sequence fed to an SDEC instance one byte at a time, with the result of each byte (R181). -/
def feed (p : Profile) (l : Lookup) (d : Sdec) : List Byte → Sdec × List (Option Parsed)
  | [] => (d, [])
  | b :: bs =>
    let o := sdecStep p l d b
    ((feed p l o.dec bs).1, o.res :: (feed p l o.dec bs).2)

/-- ACR.NEXT called until it returns `Empty`, at most `fuel` times: the valid results in order, and the machine after the
`Empty`; `none` where a call is refused or the fuel does not suffice (R215, R256). -/
def drainReader : Nat → State → Option (State × List Parsed)
  | 0, _ => none
  | fuel + 1, s =>
    match exec .acrNext s with
    | .next t =>
      match t.result with
      | .parse (some r) => (drainReader fuel t).map fun u => (u.1, r :: u.2)
      | _ => some (t, [])
    | _ => none

/-- Chunks delivered to the reader: each one is pushed, and the reader is drained after it (R215). A drain of a queue of `n`
bytes takes at most `n + 1` calls, since each returns a frame of at least one byte. -/
def deliver : List (List Byte) → State → Option (State × List Parsed)
  | [], s => some (s, [])
  | c :: cs, s =>
    match exec (.acrPush c) s with
    | .next t =>
      match drainReader (t.acr.queue.length + 1) t with
      | some (u, rs) => (deliver cs u).map fun v => (v.1, rs ++ v.2)
      | none => none
    | _ => none

/-! ### The checksum as sums (R137) -/

/-- The sum of the bytes, not reduced. -/
def byteSum (bs : List Byte) : Nat := (bs.map BitVec.toNat).sum

/-- The sum of `(n - i) * bs[i]` over a sequence of `n` bytes, not reduced. -/
def weightedSum : List Byte → Nat
  | [] => 0
  | b :: bs => (bs.length + 1) * b.toNat + weightedSum bs

/-- The two bytes are the checksum of the sequence, by the sums of R137. -/
abbrev isChecksum (bs : List Byte) (f0 f1 : Byte) : Prop :=
  f0.toNat = byteSum bs % 256 ∧ f1.toNat = weightedSum bs % 256

/-! ### The premises of a decoding operation -/

/-- A connection whose `P` is well-formed and whose `L`, where `P` reads it, keeps within `PAYLOAD_CAP` (R24, R141, R253). -/
abbrev Connection.Ready (c : Connection) : Prop :=
  c.profile.WF ∧ (c.profile.hasLength = true ∨ lookupFits c.lookup = true)

/-- The operands and the connection an instruction needs lie in the domain of R37 (R226): a well-formed `P`, an `L` that
keeps within `PAYLOAD_CAP` where `P` reads it, and a lengthless payload within `PAYLOAD_CAP`. -/
def inDomain (s : State) : Instr → Prop
  | .chkInit => True
  | .chkUpdate _ => True
  | .chkCompute _ => True
  | .chkVerify _ _ _ => True
  | .cfgHeaderSize p => p.WF
  | .cfgMaxPayload p => p.WF
  | .cfgOverhead p => p.WF
  | .encEncode p _ payload _ _ _ _ => p.WF ∧ (p.hasLength = true ∨ payload.length ≤ Config.payloadCap)
  | .decValidate p _ l => Connection.Ready ⟨p, l.getD []⟩
  | .sdecStep _ => s.sdecConn.Ready
  | .sdecReset => True
  | .acrPush _ => True
  | .acrNext => s.acrConn.Ready
  | .acrReset => True
  | .frameStandard _ _ _ => True
  | .frameSensor l _ _ => lookupFits (l.getD []) = true
  | .frameIpc l _ _ => lookupFits (l.getD []) = true
  | .frameBulk _ _ _ _ _ => True
  | .frameNetwork _ _ _ _ _ _ _ _ => True
  | .frameGeneric p l _ _ => Connection.Ready ⟨p, l.getD []⟩
  | .sdecStepLfs1 _ => s.sdecConn.Ready
  | .sdecStepLfs2 _ => s.sdecConn.Ready
  | .sdecStepHdr _ => s.sdecConn.Ready
  | .sdecStepPay _ => s.sdecConn.Ready
  | .sdecStepFtr _ => s.sdecConn.Ready

/-! ### The invariant of SDEC (R39) -/

/-- The field registers agree with `buf` at the offsets of R92 (R186); a byte not yet in `buf` reads as the register's 0. -/
structure FieldsAgree (p : Profile) (d : Sdec) : Prop where
  seq      : d.seq = if p.hasSequence then byteAt d.buf (offSeq p) else 0
  sysId    : d.sysId = if p.hasSystemId then byteAt d.buf (offSys p) else 0
  compId   : d.compId = if p.hasComponentId then byteAt d.buf (offComp p) else 0
  lenField : d.lenField.toNat = if p.hasLength then decodeLen p d.buf else 0
  pkgId    : d.pkgId = pkgIdOf p d.buf
  msgId    : d.msgId = byteAt d.buf (offMsg p)

/-- The invariant of R39 for the state register's value, with what it takes to be kept by every step. -/
def stateInv (p : Profile) (l : Lookup) (d : Sdec) : Prop :=
  match d.state with
  | .lfs1 => d = Sdec.idle
  | .lfs2 => p.nStart = 2 ∧ d.buf = [p.start1] ∧ d.cursor = 0 ∧ d.payloadRemaining = 0 ∧ d.footerRemaining = 0 ∧ d.payloadLen = 0
  | .hdr => d.buf.length = p.nStart + d.cursor ∧ d.cursor < p.hdrLen ∧ d.buf.take p.nStart = p.startBytes ∧
      (p.nStart = 0 → 1 ≤ d.cursor) ∧ d.payloadRemaining = 0 ∧ d.footerRemaining = 0 ∧ d.payloadLen = 0
  | .pay => 1 ≤ d.payloadRemaining ∧ d.payloadRemaining ≤ d.payloadLen ∧
      d.buf.length + d.payloadRemaining = p.headerSize + d.payloadLen ∧ d.footerRemaining = p.footerSize ∧
      d.buf.take p.nStart = p.startBytes ∧ payloadLength p l d.buf = some d.payloadLen
  | .ftr => p.footerSize = 2 ∧ 1 ≤ d.footerRemaining ∧ d.footerRemaining ≤ 2 ∧ d.payloadRemaining = 0 ∧
      d.buf.length + d.footerRemaining = p.headerSize + d.payloadLen + 2 ∧
      d.buf.take p.nStart = p.startBytes ∧ payloadLength p l d.buf = some d.payloadLen

/-- The invariant of an SDEC instance (R39). -/
structure SdecInv (c : Connection) (d : Sdec) : Prop where
  profile : c.profile.WF
  fields  : FieldsAgree c.profile d
  state   : stateInv c.profile c.lookup d

/-- The invariant of the machine: R39 for its SDEC instance and for the one inside its ACR. -/
structure State.Inv (s : State) : Prop where
  sdec : SdecInv s.sdecConn s.sdec
  acr  : SdecInv s.acrConn s.acr.dec

/-- The machine's SDEC instances, each with the connection it decodes for: SDEC's own and the one inside ACR (R7, R32). -/
def State.decoders (s : State) : List (Connection × Sdec) := [(s.sdecConn, s.sdec), (s.acrConn, s.acr.dec)]

/-! ### Which unit an instruction belongs to (R7) -/

/-- The units of R2 and the frame rows, which the one-shot decoder takes. -/
inductive CodecUnit where
  | chk | cfg | enc | dec | sdec | acr
deriving DecidableEq, Repr

/-- The unit of an instruction (R7, R37). -/
def unitOf : Instr → CodecUnit
  | .chkInit => .chk
  | .chkUpdate _ => .chk
  | .chkCompute _ => .chk
  | .chkVerify _ _ _ => .chk
  | .cfgHeaderSize _ => .cfg
  | .cfgMaxPayload _ => .cfg
  | .cfgOverhead _ => .cfg
  | .encEncode _ _ _ _ _ _ _ => .enc
  | .decValidate _ _ _ => .dec
  | .sdecStep _ => .sdec
  | .sdecReset => .sdec
  | .acrPush _ => .acr
  | .acrNext => .acr
  | .acrReset => .acr
  | .frameStandard _ _ _ => .dec
  | .frameSensor _ _ _ => .dec
  | .frameIpc _ _ _ => .dec
  | .frameBulk _ _ _ _ _ => .dec
  | .frameNetwork _ _ _ _ _ _ _ _ => .dec
  | .frameGeneric _ _ _ _ => .dec
  | .sdecStepLfs1 _ => .sdec
  | .sdecStepLfs2 _ => .sdec
  | .sdecStepHdr _ => .sdec
  | .sdecStepPay _ => .sdec
  | .sdecStepFtr _ => .sdec

/-- The units that hold no state (R26): their operations are pure functions of their operands (R152, R170). -/
def CodecUnit.stateless : CodecUnit → Bool
  | .chk => false
  | .cfg => true
  | .enc => true
  | .dec => true
  | .sdec => false
  | .acr => false

end Sys2Proof.Machine
end

