-- ==== Sys2Proof/Certificates/Slice0/Obligations.lean ====
section
/-!
DEFINITION. The statements about the model, one per entry of OBLIGATIONS.json.
-/

open Sys2Proof Sys2Proof.Machine

/-! ### Reset, and one step -/

/-- R40, R251 (the zeros are the spec's decision D12): after power-on, whatever `P` and `L` the connections have, every
element of state holds its reset value. -/
def Obligations.PowerOnLeavesEveryElementAtItsResetValue : Prop :=
  ∀ a b : Connection,
    (State.powerOn a b).chk.c0 = 0 ∧ (State.powerOn a b).chk.c1 = 0 ∧ (State.powerOn a b).acr.queue = [] ∧
    (State.powerOn a b).sdecConn = a ∧ (State.powerOn a b).acrConn = b ∧
    ∀ d ∈ [(State.powerOn a b).sdec, (State.powerOn a b).acr.dec],
      d.state = .lfs1 ∧ d.buf = [] ∧ d.cursor = 0 ∧ d.payloadRemaining = 0 ∧ d.footerRemaining = 0 ∧ d.seq = 0 ∧
      d.sysId = 0 ∧ d.compId = 0 ∧ d.lenField = 0 ∧ d.pkgId = 0 ∧ d.msgId = 0 ∧ d.payloadLen = 0

/-- The model's own reset (log 3, log 5, log 6): power-on with the profile Standard and no lookup, nothing issued, no result.
-/
def Obligations.ResetIsPowerOnWithTheStandardProfile : Prop :=
  State.reset = State.powerOn ⟨Profile.standard, []⟩ ⟨Profile.standard, []⟩ ∧ State.reset.requests = [] ∧
  State.reset.result = .none

/-- The oldest request, where it decodes to a well-formed instruction, is performed, on the machine without that request
(R74; the request queue is the model's, log 3). -/
def Obligations.StepPerformsTheOldestRequest : Prop :=
  ∀ (s : State) (r : List Byte) (rest : List (List Byte)) (i : Instr),
    s.requests = r :: rest → decode r = .ok i → step s = exec i { s with requests := rest }

/-- With nothing issued a step changes nothing (log 3). -/
def Obligations.StepWithNothingIssuedChangesNothing : Prop :=
  ∀ s : State, s.requests = [] → step s = .next s

/-- R110: the select codes 0xE and 0xF are no operations: a request that begins with one is refused by name. -/
def Obligations.UndefinedSelectCodesAreRefused : Prop :=
  ∀ (s : State) (code : Byte) (bs : List Byte) (rest : List (List Byte)),
    code = 0x0E ∨ code = 0x0F → s.requests = (code :: bs) :: rest →
    step s = .refused (.badRequest (.undefinedSelectCode code.toNat))

/-! ### Encoding -/

/-- Decoding the request of a well-formed instruction gives the instruction back. -/
def Obligations.DecodeOfEncodeIsTheInstruction : Prop :=
  ∀ i : Instr, i.wf = true → decode (encode i) = .ok i

/-- A request that decodes is the request of the instruction it decodes to, and that instruction is well-formed. -/
def Obligations.EncodeOfDecodeIsTheRequest : Prop :=
  ∀ (r : List Byte) (i : Instr), decode r = .ok i → i.wf = true ∧ encode i = r

/-- Words written out from the spec's codes (R110, R111) and frame layouts (R94 to R98) decode to their instructions. -/
def Obligations.WordsOfTheTableDecode : Prop :=
  decode [0x00] = .ok .chkInit ∧
  decode [0x01, 0xBB] = .ok (.chkUpdate 0xBB) ∧
  decode [0x03, 0x68, 0x1A, 0x02, 0x01, 0xAA, 0xBB] = .ok (.chkVerify [0x02, 0x01, 0xAA, 0xBB] 0x68 0x1A) ∧
  decode [0x09, 0x90] = .ok (.sdecStep 0x90) ∧
  decode [0x0B, 0x71, 0x02] = .ok (.acrPush [0x71, 0x02]) ∧
  decode [0x0C] = .ok .acrNext ∧
  decode [0x14, 0x1A] = .ok (.sdecStepFtr 0x1A) ∧
  decode [0x20, 0x90, 0x71, 0x02, 0x01, 0xAA, 0xBB, 0x68, 0x1A] = .ok (.frameStandard 0x02 0x01 [0xAA, 0xBB, 0x68, 0x1A]) ∧
  decode [0x23, 0x90, 0x74, 0x2C, 0x01, 0x02, 0x22] = .ok (.frameBulk 0x2C 0x01 0x02 0x22 []) ∧
  decode [0x0E] = .error (.undefinedSelectCode 14)

/-! ### CHK -/

/-- R131: CHK.INIT clears both accumulators and writes nothing else. -/
def Obligations.ChkInitClearsTheAccumulators : Prop :=
  ∀ s : State, exec .chkInit s = .next { s with chk := ⟨0, 0⟩, result := .none }

/-- R132: CHK.UPDATE adds the byte to `c0` and the new `c0` to `c1`, modulo 256, and writes nothing else. -/
def Obligations.ChkUpdateAddsTheByteThenTheNewSum : Prop :=
  ∀ (s : State) (b : Byte), ∃ c0 c1 : Byte,
    exec (.chkUpdate b) s = .next { s with chk := ⟨c0, c1⟩, result := .none } ∧
    c0.toNat = (s.chk.c0.toNat + b.toNat) % 256 ∧ c1.toNat = (s.chk.c1.toNat + c0.toNat) % 256

/-- R133: CHK.COMPUTE leaves and returns the two sums of R137 (marked derived there), and writes nothing else. -/
def Obligations.ChkComputeReturnsTheTwoSums : Prop :=
  ∀ (s : State) (bs : List Byte), ∃ c0 c1 : Byte,
    exec (.chkCompute bs) s = .next { s with chk := ⟨c0, c1⟩, result := .checksum c0 c1 } ∧ isChecksum bs c0 c1

/-- R135: CHK.VERIFY recomputes the pair, here as the sums of R137 (marked derived there), and answers whether both footer
bytes equal it; it writes nothing else. -/
def Obligations.ChkVerifyRequiresBothBytes : Prop :=
  ∀ (s : State) (bs : List Byte) (f0 f1 : Byte), ∃ (c0 c1 : Byte) (ok : Bool),
    exec (.chkVerify bs f0 f1) s = .next { s with chk := ⟨c0, c1⟩, result := .verified ok } ∧
    isChecksum bs c0 c1 ∧ (ok = true ↔ f0 = c0 ∧ f1 = c1)

/-- R132: CHK.INIT and then CHK.UPDATE of each byte leave the registers CHK.COMPUTE leaves. -/
def Obligations.InitThenUpdatesAgreeWithCompute : Prop :=
  ∀ (s : State) (bs : List Byte), ∃ (t u : State) (rs : List Result),
    performAll (.chkInit :: bs.map .chkUpdate) s = some (t, rs) ∧ exec (.chkCompute bs) s = .next u ∧ t.chk = u.chk

/-- R137 (a), marked derived there: a footer that verifies a range does not verify the range with one byte changed. -/
def Obligations.VerifyDetectsAChangedByte : Prop :=
  ∀ (s t : State) (xs ys : List Byte) (b b' f0 f1 : Byte),
    b ≠ b' → exec (.chkVerify (xs ++ b :: ys) f0 f1) s = .next t → t.result = .verified true →
    ∃ u, exec (.chkVerify (xs ++ b' :: ys) f0 f1) s = .next u ∧ u.result = .verified false

/-- R137 (c), marked derived there: leading zero bytes are invisible, and an all-zero range has the checksum of the empty
one. -/
def Obligations.LeadingZerosAreInvisible : Prop :=
  ∀ (s : State) (n : Nat) (bs : List Byte),
    exec (.chkCompute (List.replicate n 0 ++ bs)) s = exec (.chkCompute bs) s

/-! ### CFG -/

/-- R142: CFG.HEADER_SIZE returns the formula's value, which is the stored field of a well-formed profile, 1 to 9. -/
def Obligations.CfgHeaderSizeCountsTheHeader : Prop :=
  ∀ (s : State) (p : Profile), p.WF → ∃ n : Nat,
    exec (.cfgHeaderSize p) s = .next { s with result := .size n } ∧
    n = p.nStart + (if p.hasSequence then 1 else 0) + (if p.hasSystemId then 1 else 0) + (if p.hasComponentId then 1 else 0) +
      (if p.hasLength then p.lengthWidth else 0) + (if p.hasPackageId then 1 else 0) + 1 ∧
    n = p.storedHeaderSize ∧ 1 ≤ n ∧ n ≤ 9

/-- R143: CFG.MAX_PAYLOAD returns 255, 65535 or unbounded. -/
def Obligations.CfgMaxPayloadFollowsTheLengthField : Prop :=
  ∀ (s : State) (p : Profile), p.WF →
    (p.hasLength = true → p.lengthWidth = 1 → exec (.cfgMaxPayload p) s = .next { s with result := .size 255 }) ∧
    (p.hasLength = true → p.lengthWidth = 2 → exec (.cfgMaxPayload p) s = .next { s with result := .size 65535 }) ∧
    (p.hasLength = false → exec (.cfgMaxPayload p) s = .next { s with result := .unbounded })

/-- R144: CFG.OVERHEAD returns header and footer together, 1 to 11. -/
def Obligations.CfgOverheadAddsTheFooter : Prop :=
  ∀ (s : State) (p : Profile), p.WF → ∃ n : Nat,
    exec (.cfgOverhead p) s = .next { s with result := .size n } ∧ n = p.storedHeaderSize + p.footerSize ∧ 1 ≤ n ∧ n ≤ 11

/-- R147 (marked derived there): the five canonical profiles are well-formed and have the sizes of the table. -/
def Obligations.CanonicalProfilesHaveTheTabledSizes : Prop :=
  [Profile.standard, Profile.sensor, Profile.ipc, Profile.bulk, Profile.network].map
    (fun p => (decide p.WF, p.hdrLen, p.headerSize, p.overhead, p.maxPayload)) =
  [(true, 2, 4, 6, some 255), (true, 1, 2, 2, none), (true, 1, 1, 1, none), (true, 4, 6, 8, some 65535),
   (true, 7, 9, 11, some 65535)]

/-- R107, R141: no operation runs on a configuration that is not well-formed; it is refused by name. -/
def Obligations.IllFormedConfigurationIsRefused : Prop :=
  ∀ (s : State) (p : Profile), ¬ p.WF →
    (∀ i : Instr,
      i = .cfgHeaderSize p ∨ i = .cfgMaxPayload p ∨ i = .cfgOverhead p ∨
      (∃ m payload sq sy co pk, i = .encEncode p m payload sq sy co pk) ∨ (∃ buffer l, i = .decValidate p buffer l) ∨
      (∃ l fields body, i = .frameGeneric p l fields body) →
      exec i s = .refused .illFormedConfiguration) ∧
    (s.sdecConn.profile = p → ∀ b, exec (.sdecStep b) s = .refused .illFormedConfiguration) ∧
    (s.acrConn.profile = p → exec .acrNext s = .refused .illFormedConfiguration)

/-! ### ENC -/

/-- R150, R92, R104: the frame ENC.ENCODE returns holds every part at its offset, its length field is the payload length low
byte first, its footer is the checksum of everything between start bytes and footer, and no state is written. -/
def Obligations.EncodeLaysOutTheFrame : Prop :=
  ∀ (s : State) (p : Profile) (m sq sy co pk : Byte) (payload : List Byte), p.WF →
    (p.hasLength = true → payload.length ≤ if p.lengthWidth = 1 then 255 else 65535) →
    (p.hasLength = false → payload.length ≤ Config.payloadCap) →
    ∃ f : List Byte, exec (.encEncode p m payload sq sy co pk) s = .next { s with result := .frame f } ∧
      f.length = p.headerSize + payload.length + p.footerSize ∧
      (1 ≤ p.nStart → f[0]? = some p.start1) ∧ (p.nStart = 2 → f[1]? = some p.start2) ∧
      (p.hasSequence = true → f[offSeq p]? = some sq) ∧ (p.hasSystemId = true → f[offSys p]? = some sy) ∧
      (p.hasComponentId = true → f[offComp p]? = some co) ∧
      (p.hasLength = true → f[offLen p]? = some (BitVec.ofNat 8 payload.length)) ∧
      (p.hasLength = true → p.lengthWidth = 2 → f[offLen p + 1]? = some (BitVec.ofNat 8 (payload.length / 256))) ∧
      (p.hasPackageId = true → f[offPkg p]? = some pk) ∧ f[p.headerSize - 1]? = some m ∧
      slice f p.headerSize (p.headerSize + payload.length) = payload ∧
      (p.footerSize = 2 → ∃ c0 c1 : Byte,
        f[p.headerSize + payload.length]? = some c0 ∧ f[p.headerSize + payload.length + 1]? = some c1 ∧
        isChecksum (slice f p.nStart (p.headerSize + payload.length)) c0 c1)

/-- R151: a payload the length field cannot represent gives `Failure(PayloadTooLarge)` and no frame; nothing else does, and a
lengthless profile never; beyond `PAYLOAD_CAP` a lengthless payload is refused at the interface. -/
def Obligations.EncodeFailsExactlyOnAPayloadTooLarge : Prop :=
  ∀ (s : State) (p : Profile) (m sq sy co pk : Byte) (payload : List Byte), p.WF →
    (p.hasLength = true → (if p.lengthWidth = 1 then 255 else 65535) < payload.length →
      exec (.encEncode p m payload sq sy co pk) s = .next { s with result := .failurePayloadTooLarge }) ∧
    (p.hasLength = true → payload.length ≤ (if p.lengthWidth = 1 then 255 else 65535) →
      ∃ f, exec (.encEncode p m payload sq sy co pk) s = .next { s with result := .frame f }) ∧
    (p.hasLength = false → payload.length ≤ Config.payloadCap →
      ∃ f, exec (.encEncode p m payload sq sy co pk) s = .next { s with result := .frame f }) ∧
    (p.hasLength = false → Config.payloadCap < payload.length →
      exec (.encEncode p m payload sq sy co pk) s = .refused .capacityExceeded)

/-- R8, R24, D7: for a lengthless profile a lookup that answers beyond `PAYLOAD_CAP` is refused at the interface, by the
one-shot decoder, the streaming decoder and the reader (log 8). -/
def Obligations.LookupBeyondPayloadCapIsRefused : Prop :=
  ∀ (s : State) (p : Profile) (l : Lookup), p.WF → p.hasLength = false → (∃ e ∈ l, Config.payloadCap < e.2) →
    (∀ buffer, exec (.decValidate p buffer (some l)) s = .refused .capacityExceeded) ∧
    (∀ fields body, exec (.frameGeneric p (some l) fields body) s = .refused .capacityExceeded) ∧
    (s.sdecConn = ⟨p, l⟩ → ∀ b, exec (.sdecStep b) s = .refused .capacityExceeded) ∧
    (s.acrConn = ⟨p, l⟩ → exec .acrNext s = .refused .capacityExceeded)

/-- R153: operands for fields the profile lacks are ignored. -/
def Obligations.EncodeIgnoresOperandsOfAbsentFields : Prop :=
  ∀ (s : State) (p : Profile) (m sq sy co pk sq' sy' co' pk' : Byte) (payload : List Byte),
    (p.hasSequence = true → sq = sq') → (p.hasSystemId = true → sy = sy') → (p.hasComponentId = true → co = co') →
    (p.hasPackageId = true → pk = pk') →
    exec (.encEncode p m payload sq sy co pk) s = exec (.encEncode p m payload sq' sy' co' pk') s

/-- R155 (marked derived there): what ENC.ENCODE returns has the size of the payload and the overhead, and DEC.VALIDATE
accepts it, with the msg_id, package id and payload given; for a lengthless profile provided the lookup answers the payload's
length. -/
def Obligations.ValidateRecoversWhatEncodeBuilt : Prop :=
  ∀ (s t : State) (p : Profile) (m sq sy co pk : Byte) (payload f : List Byte) (l : Option Lookup),
    exec (.encEncode p m payload sq sy co pk) s = .next t → t.result = .frame f →
    (p.hasLength = false → lookupFits (l.getD []) = true ∧ lookupLength (l.getD []) m = some payload.length) →
    f.length = p.overhead + payload.length ∧
    exec (.decValidate p f l) t =
      .next { t with result := .parse (some ⟨zext32 m, if p.hasPackageId then pk else 0, payload,
        BitVec.ofNat 32 payload.length⟩) }

/-! ### DEC1 and the frame rows -/

/-- R160 to R169: DEC.VALIDATE writes no state, and it answers `VALID` with exactly these fields exactly where every check
passes; every other buffer is `INVALID`. -/
def Obligations.ValidateAcceptsExactlyTheValidFrames : Prop :=
  ∀ (s : State) (p : Profile) (buffer : List Byte) (l : Option Lookup), Connection.Ready ⟨p, l.getD []⟩ →
    ∃ r : Option Parsed, exec (.decValidate p buffer l) s = .next { s with result := .parse r } ∧
      ∀ q : Parsed, r = some q ↔ ∃ n : Nat,
        (if p.hasLength then
            n = if p.lengthWidth = 1 then (byteAt buffer (offLen p)).toNat
                else (byteAt buffer (offLen p)).toNat + 256 * (byteAt buffer (offLen p + 1)).toNat
          else lookupLength (l.getD []) (byteAt buffer (p.headerSize - 1)) = some n) ∧
        p.headerSize + p.footerSize + n ≤ buffer.length ∧
        (1 ≤ p.nStart → buffer[0]? = some p.start1) ∧ (p.nStart = 2 → buffer[1]? = some p.start2) ∧
        (p.footerSize = 2 → isChecksum (slice buffer p.nStart (p.headerSize + n)) (byteAt buffer (p.headerSize + n))
          (byteAt buffer (p.headerSize + n + 1))) ∧
        q.msgId = zext32 (byteAt buffer (p.headerSize - 1)) ∧
        q.pkgId = (if p.hasPackageId then byteAt buffer (p.headerSize - 2) else 0) ∧
        q.payload = slice buffer p.headerSize (p.headerSize + n) ∧ q.payload.length = n ∧ q.payloadLen = BitVec.ofNat 32 n

/-- R228: of the checks that fail, the first in the order of the algorithm gives the error kind. -/
def Obligations.ValidateReportsTheFirstFailingCheck : Prop :=
  ∀ (p : Profile) (buffer : List Byte) (l : Lookup),
    (validate p buffer l = .error .bufferTooShort ↔ buffer.length < p.overhead) ∧
    (validate p buffer l = .error .invalidStartBytes ↔ p.overhead ≤ buffer.length ∧ startBytesMatch p buffer = false) ∧
    (validate p buffer l = .error .unknownMessageLength ↔
      p.overhead ≤ buffer.length ∧ startBytesMatch p buffer = true ∧ payloadLength p l buffer = none) ∧
    (validate p buffer l = .error .truncated ↔
      p.overhead ≤ buffer.length ∧ startBytesMatch p buffer = true ∧
      ∃ n, payloadLength p l buffer = some n ∧ buffer.length < p.overhead + n) ∧
    (validate p buffer l = .error .checksumMismatch ↔
      startBytesMatch p buffer = true ∧ 0 < p.footerSize ∧
      ∃ n, payloadLength p l buffer = some n ∧ p.overhead + n ≤ buffer.length ∧
        checksumOk p buffer (p.overhead + n) = false)

/-- R171 (marked derived there): bytes behind a valid frame are ignored. -/
def Obligations.TrailingBytesAreIgnored : Prop :=
  ∀ (s t : State) (p : Profile) (f tail : List Byte) (l : Option Lookup) (q : Parsed),
    exec (.decValidate p f l) s = .next t → t.result = .parse (some q) →
    exec (.decValidate p (f ++ tail) l) s = exec (.decValidate p f l) s

/-- R173 (marked derived there): a strict prefix of an encoded frame is `INVALID`; for a lengthless profile where the lookup
answers the payload's length. -/
def Obligations.StrictPrefixesAreInvalid : Prop :=
  ∀ (s t : State) (p : Profile) (m sq sy co pk : Byte) (payload f : List Byte) (l : Option Lookup) (k : Nat),
    exec (.encEncode p m payload sq sy co pk) s = .next t → t.result = .frame f → k < f.length →
    (p.hasLength = false → lookupFits (l.getD []) = true ∧ lookupLength (l.getD []) m = some payload.length) →
    exec (.decValidate p (f.take k) l) s = .next { s with result := .parse none }

/-- R138 as narrowed (marked derived there), without its start bytes' exception: in a valid frame of a profile with a footer,
a changed byte outside the length field (and, for a lengthless profile, other than the msg_id the lookup is asked with) makes
it `INVALID`. -/
def Obligations.AChangedByteOutsideTheLengthIsDetected : Prop :=
  ∀ (s t : State) (p : Profile) (f : List Byte) (l : Option Lookup) (q : Parsed) (k : Nat) (b : Byte),
    exec (.decValidate p f l) s = .next t → t.result = .parse (some q) → p.footerSize = 2 →
    f.length = p.headerSize + q.payload.length + 2 → k < f.length → f[k]? ≠ some b →
    (p.hasLength = true → k < offLen p ∨ offLen p + p.lengthWidth ≤ k) → (p.hasLength = false → k ≠ p.headerSize - 1) →
    exec (.decValidate p (f.set k b) l) s = .next { s with result := .parse none }

/-- R94 (marked derived there), row FRAME.STANDARD as the one-shot decoder (log 1): a Standard frame: the length byte counts
the payload, the footer covers length, msg_id and payload. -/
def Obligations.StandardFrameIsRecognised : Prop :=
  ∀ (s : State) (len m : Byte) (body : List Byte),
    ∃ r : Option Parsed, exec (.frameStandard len m body) s = .next { s with result := .parse r } ∧
      (body.length < len.toNat + 2 → r = none) ∧
      ∀ (payload tail : List Byte) (f0 f1 : Byte), body = payload ++ f0 :: f1 :: tail → payload.length = len.toNat →
        r = if isChecksum (len :: m :: payload) f0 f1 then some ⟨zext32 m, 0, payload, BitVec.ofNat 32 payload.length⟩
            else none

/-- R97 (marked derived there; log 1): a Bulk frame: a two-byte length, low byte first, then the package id, which the result
exposes. -/
def Obligations.BulkFrameIsRecognised : Prop :=
  ∀ (s : State) (lo hi pk m : Byte) (body : List Byte),
    ∃ r : Option Parsed, exec (.frameBulk lo hi pk m body) s = .next { s with result := .parse r } ∧
      (body.length < lo.toNat + 256 * hi.toNat + 2 → r = none) ∧
      ∀ (payload tail : List Byte) (f0 f1 : Byte), body = payload ++ f0 :: f1 :: tail →
        payload.length = lo.toNat + 256 * hi.toNat →
        r = if isChecksum (lo :: hi :: pk :: m :: payload) f0 f1
            then some ⟨zext32 m, pk, payload, BitVec.ofNat 32 payload.length⟩ else none

/-- R98 (marked derived there; log 1): a Network frame: sequence, system and component id are covered by the footer and reach
no result. -/
def Obligations.NetworkFrameIsRecognised : Prop :=
  ∀ (s : State) (sq sy co lo hi pk m : Byte) (body : List Byte),
    ∃ r : Option Parsed, exec (.frameNetwork sq sy co lo hi pk m body) s = .next { s with result := .parse r } ∧
      (body.length < lo.toNat + 256 * hi.toNat + 2 → r = none) ∧
      ∀ (payload tail : List Byte) (f0 f1 : Byte), body = payload ++ f0 :: f1 :: tail →
        payload.length = lo.toNat + 256 * hi.toNat →
        r = if isChecksum (sq :: sy :: co :: lo :: hi :: pk :: m :: payload) f0 f1
            then some ⟨zext32 m, pk, payload, BitVec.ofNat 32 payload.length⟩ else none

/-- R95, R96 (marked derived there; log 1): a Sensor or IPC frame takes its payload length from the lookup, has no footer,
and is `INVALID` for an unknown msg_id or a body too short. -/
def Obligations.LengthlessFramesAreRecognised : Prop :=
  ∀ (s : State) (l : Option Lookup) (m : Byte) (body : List Byte), lookupFits (l.getD []) = true →
    ∃ r : Option Parsed, exec (.frameSensor l m body) s = .next { s with result := .parse r } ∧
      exec (.frameIpc l m body) s = .next { s with result := .parse r } ∧
      (lookupLength (l.getD []) m = none → r = none) ∧
      ∀ n, lookupLength (l.getD []) m = some n →
        r = if n ≤ body.length then some ⟨zext32 m, 0, body.take n, BitVec.ofNat 32 n⟩ else none

/-- R90, R114 (log 1): a frame of any profile: what ENC.ENCODE builds, cut behind its header, is recognised by the generic
row; and the row is the one-shot decoder on the whole frame. -/
def Obligations.GenericFrameIsRecognised : Prop :=
  ∀ (s : State) (p : Profile) (l : Option Lookup) (fields body : List Byte), Connection.Ready ⟨p, l.getD []⟩ →
    ∃ t : State, exec (.frameGeneric p l fields body) s = .next t ∧
      exec (.decValidate p (p.startBytes ++ (fields ++ body)) l) s = .next t ∧
      ∀ (u v : State) (m sq sy co pk : Byte) (payload f : List Byte),
        exec (.encEncode p m payload sq sy co pk) u = .next v → v.result = .frame f →
        (p.hasLength = false → lookupLength (l.getD []) m = some payload.length) →
        fields = slice f p.nStart p.headerSize → body = f.drop p.headerSize →
        t.result = .parse (some ⟨zext32 m, if p.hasPackageId then pk else 0, payload, BitVec.ofNat 32 payload.length⟩)

/-! ### SDEC -/

/-- R183: in LFS1, under a profile with start bytes, the first start byte opens a frame and every other byte is dropped. -/
def Obligations.Lfs1LooksForTheFirstStartByte : Prop :=
  ∀ (s : State) (b : Byte), s.sdecConn.Ready → s.sdec.state = .lfs1 → 1 ≤ s.sdecConn.profile.nStart →
    ∃ t : State, exec (.sdecStep b) s = .next t ∧ exec (.sdecStepLfs1 b) s = .next t ∧
      (b = s.sdecConn.profile.start1 →
        t = { s with result := .parse none, sdec := { s.sdec with buf := [b], cursor := 0, state :=
                if s.sdecConn.profile.nStart = 2 then .lfs2 else .hdr } }) ∧
      (b ≠ s.sdecConn.profile.start1 → t = { s with result := .parse none })

/-- R184: in LFS1, under a profile without start bytes, the byte is taken as the first header byte in the same step. -/
def Obligations.Lfs1WithoutStartBytesParsesTheHeader : Prop :=
  ∀ (s : State) (b : Byte), s.sdecConn.Ready → s.sdec.state = .lfs1 → s.sdecConn.profile.nStart = 0 →
    ∃ t : State, exec (.sdecStep b) s = .next t ∧ exec (.sdecStepLfs1 b) s = .next t ∧
      exec (.sdecStepHdr b) { s with sdec := { s.sdec with buf := [], cursor := 0, state := .hdr } } = .next t

/-- R185: in LFS2 the second start byte is tested first, then the first one, and any other byte resets the instance. -/
def Obligations.Lfs2LooksForTheSecondStartByte : Prop :=
  ∀ (s : State) (b : Byte), s.sdecConn.Ready → s.sdec.state = .lfs2 →
    ∃ t : State, exec (.sdecStep b) s = .next t ∧ exec (.sdecStepLfs2 b) s = .next t ∧
      t = { s with result := .parse none, sdec :=
              if b = s.sdecConn.profile.start2 then { s.sdec with buf := s.sdec.buf ++ [b], cursor := 0, state := .hdr }
              else if b = s.sdecConn.profile.start1 then { s.sdec with buf := [b] }
              else Sdec.idle }

/-- R186: in HDR, before the last header byte, the byte is appended and goes into the register of the field the cursor names;
nothing else is written. The sum of LEN1 is stated under the invariant, since only there it fits the 16-bit register: in states
no run reaches the register wraps, which is the model's choice (log 14) and stated nowhere here. -/
def Obligations.HeaderByteGoesToItsField : Prop :=
  ∀ (s : State) (b : Byte) (tag : Tag), s.sdecConn.Ready → s.sdec.state = .hdr →
    s.sdec.cursor + 1 < s.sdecConn.profile.hdrLen → s.sdecConn.profile.fields[s.sdec.cursor]? = some tag →
    ∃ len : BitVec 16,
      (tag = .len0 → len.toNat = b.toNat) ∧
      (tag = .len1 → s.Inv → len.toNat = s.sdec.lenField.toNat + 256 * b.toNat) ∧
      (tag ≠ .len0 → tag ≠ .len1 → len = s.sdec.lenField) ∧
      ∃ t : State, exec (.sdecStep b) s = .next t ∧ exec (.sdecStepHdr b) s = .next t ∧
      t = { s with result := .parse none, sdec :=
              { s.sdec with
                buf := s.sdec.buf ++ [b]
                cursor := s.sdec.cursor + 1
                seq := if tag = .seq then b else s.sdec.seq
                sysId := if tag = .sys then b else s.sdec.sysId
                compId := if tag = .comp then b else s.sdec.compId
                lenField := len
                pkgId := if tag = .pkg then b else s.sdec.pkgId
                msgId := if tag = .msg then b else s.sdec.msgId } }

/-- R187: the last header byte is the msg_id; the payload length comes from the length field or the lookup, and decides
between PAY, FTR, completion with an empty payload, and a full reset for an unknown msg_id. -/
def Obligations.EndOfHeaderChoosesTheNextState : Prop :=
  ∀ (s : State) (b : Byte), s.sdecConn.Ready → s.sdec.state = .hdr → s.sdec.cursor + 1 = s.sdecConn.profile.hdrLen →
    ∃ (d : Sdec) (r : Option Parsed),
      exec (.sdecStep b) s = .next { s with sdec := d, result := .parse r } ∧
      exec (.sdecStepHdr b) s = .next { s with sdec := d, result := .parse r } ∧
      (s.sdecConn.profile.hasLength = false → lookupLength s.sdecConn.lookup b = none → d = Sdec.idle ∧ r = none) ∧
      ∀ n : Nat, (if s.sdecConn.profile.hasLength then n = s.sdec.lenField.toNat
                  else lookupLength s.sdecConn.lookup b = some n) →
        if n = 0 ∧ s.sdecConn.profile.footerSize = 0 then d = Sdec.idle ∧ r = some ⟨zext32 b, s.sdec.pkgId, [], 0⟩
        else r = none ∧
          d = { s.sdec with
                buf := s.sdec.buf ++ [b]
                cursor := s.sdec.cursor + 1
                msgId := b
                payloadLen := n
                payloadRemaining := n
                footerRemaining := s.sdecConn.profile.footerSize
                state := if 0 < n then .pay else .ftr }

/-- R188: in PAY the byte is appended and counted; at the last one the instance goes to FTR, or, without a footer, completes
with the payload behind the header. -/
def Obligations.PayloadByteIsCounted : Prop :=
  ∀ (s : State) (b : Byte), s.sdecConn.Ready → s.sdec.state = .pay → 1 ≤ s.sdec.payloadRemaining →
    s.sdec.footerRemaining = s.sdecConn.profile.footerSize →
    ∃ (d : Sdec) (r : Option Parsed),
      exec (.sdecStep b) s = .next { s with sdec := d, result := .parse r } ∧
      exec (.sdecStepPay b) s = .next { s with sdec := d, result := .parse r } ∧
      if s.sdec.payloadRemaining = 1 ∧ s.sdecConn.profile.footerSize = 0 then
        d = Sdec.idle ∧ ∃ q : Parsed, r = some q ∧ q.msgId = zext32 s.sdec.msgId ∧ q.pkgId = s.sdec.pkgId ∧
          q.payload = slice (s.sdec.buf ++ [b]) s.sdecConn.profile.headerSize
            (s.sdecConn.profile.headerSize + s.sdec.payloadLen) ∧ q.payloadLen = BitVec.ofNat 32 q.payload.length
      else r = none ∧
        d = { s.sdec with
              buf := s.sdec.buf ++ [b]
              payloadRemaining := s.sdec.payloadRemaining - 1
              state := if s.sdec.payloadRemaining = 1 then .ftr else .pay }

/-- R189, R190: in FTR the first footer byte is only counted; at the second the checksum of everything between start bytes
and footer decides, and the instance is idle either way. -/
def Obligations.FooterDecidesTheFrame : Prop :=
  ∀ (s : State) (b : Byte), s.sdecConn.Ready → s.sdec.state = .ftr → s.sdecConn.profile.footerSize = 2 →
    1 ≤ s.sdec.footerRemaining →
    ∃ (d : Sdec) (r : Option Parsed),
      exec (.sdecStep b) s = .next { s with sdec := d, result := .parse r } ∧
      exec (.sdecStepFtr b) s = .next { s with sdec := d, result := .parse r } ∧
      (s.sdec.footerRemaining ≠ 1 → r = none ∧
        d = { s.sdec with buf := s.sdec.buf ++ [b], footerRemaining := s.sdec.footerRemaining - 1 }) ∧
      (s.sdec.footerRemaining = 1 → d = Sdec.idle ∧ ∀ (frame : List Byte) (f0 : Byte), s.sdec.buf = frame ++ [f0] →
        (¬ isChecksum (frame.drop s.sdecConn.profile.nStart) f0 b → r = none) ∧
        (isChecksum (frame.drop s.sdecConn.profile.nStart) f0 b →
          ∃ q : Parsed, r = some q ∧ q.msgId = zext32 s.sdec.msgId ∧ q.pkgId = s.sdec.pkgId ∧
            q.payload = slice (s.sdec.buf ++ [b]) s.sdecConn.profile.headerSize
              (s.sdecConn.profile.headerSize + s.sdec.payloadLen) ∧ q.payloadLen = BitVec.ofNat 32 q.payload.length))

/-- R193: SDEC.RESET puts the instance into the idle state, whatever it was doing, and writes nothing else. -/
def Obligations.SdecResetMakesTheInstanceIdle : Prop :=
  ∀ s : State, exec .sdecReset s = .next { s with sdec := Sdec.idle, result := .none }

/-- R181: which rule applies is selected by the state register alone. So in every state a byte offered by way of any state row is
taken as SDEC.STEP takes it: by the row's own rule where the register selects the row, and by the selected one elsewhere, which
is the model's choice for a request that names another row (log 2). -/
def Obligations.StepRunsTheRowTheStateSelects : Prop :=
  ∀ (s : State) (b : Byte), ∀ row ∈ [Instr.sdecStepLfs1 b, .sdecStepLfs2 b, .sdecStepHdr b, .sdecStepPay b, .sdecStepFtr b],
    exec row s = exec (.sdecStep b) s

/-- R39 (marked derived there): the power-on state meets the invariant, for every pair of well-formed profiles. -/
def Obligations.PowerOnMeetsTheInvariant : Prop :=
  ∀ a b : Connection, a.profile.WF → b.profile.WF → (State.powerOn a b).Inv

/-- R39 (marked derived there): every step keeps the invariant of both decoders. -/
def Obligations.EveryStepKeepsTheInvariant : Prop :=
  ∀ s t : State, s.Inv → step s = .next t → t.Inv

/-- R73: in both decoders, SDEC's and ACR's, the accumulation buffer never holds more than one frame. The frame is at most
`9 + 65535 + 2` bytes for a profile with a length field and `9 + PAYLOAD_CAP + 2` for a lengthless one, and it fits every
`BUF_CAP` R8 allows: `bufCap` is the least of them, the value the model takes by its own choice (log 8), and no upper bound on
`BUF_CAP` is stated. -/
def Obligations.BufferHoldsAtMostOneFrame : Prop :=
  ∀ s : State, s.Inv → ∀ e ∈ s.decoders, e.1.Ready →
    let p := e.1.profile
    let frame := p.headerSize + e.2.payloadLen + p.footerSize
    e.2.buf.length ≤ frame ∧
    frame ≤ 9 + (if p.hasLength then 65535 else Config.payloadCap) + 2 ∧
    ∀ cap : Nat, bufCap p ≤ cap → frame ≤ cap

/-- R196 (marked derived there): a frame the one-shot decoder accepts, fed to an instance between frames, is `INVALID` for
each byte but the last and the one-shot result for the last. Between frames is idle, or LFS2 under a profile whose start
bytes differ (R192). -/
def Obligations.StreamingDecoderAcceptsWhatValidateAccepts : Prop :=
  ∀ (s u : State) (g : List Byte) (q : Parsed), s.sdecConn.Ready →
    (s.sdec = Sdec.idle ∨ (s.sdec = { Sdec.idle with state := .lfs2, buf := [s.sdecConn.profile.start1] } ∧
      s.sdecConn.profile.nStart = 2 ∧ s.sdecConn.profile.start1 ≠ s.sdecConn.profile.start2)) →
    exec (.decValidate s.sdecConn.profile g (some s.sdecConn.lookup)) s = .next u → u.result = .parse (some q) →
    g.length = s.sdecConn.profile.overhead + q.payload.length →
    ∃ t : State, performAll (g.map .sdecStep) s =
        some (t, List.replicate (g.length - 1) (.parse none) ++ [.parse (some q)]) ∧ t.sdec = Sdec.idle

/-- R196 (marked derived there): where the last byte of a sequence fed to an idle instance gives `VALID`, the suffix of the
frame's size is a frame the one-shot decoder accepts with the same result. -/
def Obligations.ValidateAcceptsWhatTheStreamingDecoderAccepts : Prop :=
  ∀ (s t : State) (f : List Byte) (rs : List Result) (q : Parsed), s.sdec = Sdec.idle →
    performAll (f.map .sdecStep) s = some (t, rs ++ [.parse (some q)]) →
    ∃ pre g : List Byte, f = pre ++ g ∧ g.length = s.sdecConn.profile.overhead + q.payload.length ∧
      exec (.decValidate s.sdecConn.profile g (some s.sdecConn.lookup)) s = .next { s with result := .parse (some q) }

/-- R192 (marked derived there): from PAY or FTR the instance is idle after exactly the bytes the frame still needs, whatever
their values. -/
def Obligations.FrameInProgressEndsIdle : Prop :=
  ∀ (s : State) (bs : List Byte), s.Inv → s.sdecConn.Ready → (s.sdec.state = .pay ∨ s.sdec.state = .ftr) →
    s.sdec.buf.length + bs.length =
      s.sdecConn.profile.headerSize + s.sdec.payloadLen + s.sdecConn.profile.footerSize →
    ∃ (t : State) (rs : List Result), performAll (bs.map .sdecStep) s = some (t, rs) ∧ t.sdec = Sdec.idle

/-- R195 (marked derived there): inside a frame no byte is compared with the start bytes: a step from HDR, PAY or FTR does
not depend on them. -/
def Obligations.InsideAFrameStartBytesAreNotCompared : Prop :=
  ∀ (s t : State) (b x y : Byte), s.sdec.state = .hdr ∨ s.sdec.state = .pay ∨ s.sdec.state = .ftr →
    exec (.sdecStep b) s = .next t →
    exec (.sdecStep b)
        { s with sdecConn := { s.sdecConn with profile := { s.sdecConn.profile with start1 := x, start2 := y } } } =
      .next { t with sdecConn := { s.sdecConn with profile := { s.sdecConn.profile with start1 := x, start2 := y } } }

/-! ### ACR -/

/-- R211: ACR.PUSH appends to the queue and touches nothing else; no byte is decoded. -/
def Obligations.PushAppendsToTheQueue : Prop :=
  ∀ (s : State) (bytes : List Byte),
    exec (.acrPush bytes) s = .next { s with acr := ⟨s.acr.dec, s.acr.queue ++ bytes⟩, result := .none }

/-- R213: ACR.RESET empties the queue and resets the decoder, and touches nothing else. -/
def Obligations.AcrResetDropsQueueAndFrame : Prop :=
  ∀ s : State, exec .acrReset s = .next { s with acr := ⟨Sdec.idle, []⟩, result := .none }

/-- R212: ACR.NEXT feeds the queue's bytes in order up to and including the first that gives a valid result, which it returns
with the decoder idle; where none does, the queue is drained into the decoder and the result is `Empty`. -/
def Obligations.NextFeedsUpToTheFirstValidResult : Prop :=
  ∀ s : State, s.acrConn.Ready →
    ∃ (a : Acr) (r : Result), exec .acrNext s = .next { s with acr := a, result := r } ∧
      ((r = .empty ∧ a.queue = [] ∧ feed s.acrConn.profile s.acrConn.lookup s.acr.dec s.acr.queue =
          (a.dec, List.replicate s.acr.queue.length none)) ∨
       (∃ (fed : List Byte) (q : Parsed), r = .parse (some q) ∧ s.acr.queue = fed ++ a.queue ∧ a.dec = Sdec.idle ∧
          feed s.acrConn.profile s.acrConn.lookup s.acr.dec fed =
            (a.dec, List.replicate (fed.length - 1) none ++ [some q]) ∧ fed ≠ []))

/-- R215 (marked derived there): chunking does not matter: the results of draining the reader after each chunk are those of
one chunk, which are the valid results SDEC.STEP gives for the same bytes; and the reader ends in the same state. -/
def Obligations.ChunkingDoesNotMatter : Prop :=
  ∀ (s : State) (c : List Byte) (cs : List (List Byte)), s.acrConn.Ready →
    ∃ (t u : State) (rs : List Parsed),
      deliver (c :: cs) s = some (t, rs) ∧ deliver [(c :: cs).flatten] s = some (u, rs) ∧ t.acr = u.acr ∧
      rs = (feed s.acrConn.profile s.acrConn.lookup s.acr.dec (s.acr.queue ++ (c :: cs).flatten)).2.filterMap id

/-! ### The whole machine -/

/-- R226: within its domain every instruction answers a next state. -/
def Obligations.EveryInstructionInItsDomainAnswers : Prop :=
  ∀ (s : State) (i : Instr), inDomain s i → ∃ t : State, exec i s = .next t

/-- R152, R170: CFG, ENC, DEC1 and the frame rows are pure: the result depends on the operands alone and nothing else is
written. -/
def Obligations.StatelessUnitsArePure : Prop :=
  ∀ (i : Instr) (s s' t : State), (unitOf i).stateless = true → exec i s = .next t →
    ∃ r : Result, t = { s with result := r } ∧ exec i s' = .next { s' with result := r }

/-- R60, R75: an instruction writes only the state of its own unit, and no instruction writes `P`, `L` or the requests. -/
def Obligations.UnitsShareNothing : Prop :=
  ∀ (i : Instr) (s t : State), exec i s = .next t →
    t.requests = s.requests ∧ t.sdecConn = s.sdecConn ∧ t.acrConn = s.acrConn ∧
    (unitOf i ≠ .chk → t.chk = s.chk) ∧ (unitOf i ≠ .sdec → t.sdec = s.sdec) ∧ (unitOf i ≠ .acr → t.acr = s.acr)

/-- R79: `P` and `L` of a connection never change. -/
def Obligations.ConfigurationIsConstant : Prop :=
  ∀ s t : State, step s = .next t → t.sdecConn = s.sdecConn ∧ t.acrConn = s.acrConn

/-- R36: the environment observes SDEC and ACR by results only: whether a step is refused, and by which name, does not depend on
the state of either. -/
def Obligations.RefusalsRevealNoHiddenState : Prop :=
  ∀ (s : State) (d : Sdec) (a : Acr) (r : Refusal),
    step s = .refused r → step { s with sdec := d, acr := a } = .refused r
end

