-- ==== Sys2Proof/Laws/Bytes.lean ====
section
/-!
SUPPORT. Bytes and slices of byte sequences.
-/

namespace Sys2Proof.Machine

theorem byteAt_of_getElem? {s : List Byte} {i : Nat} {b : Byte} (h : s[i]? = some b) : byteAt s i = b := by
  simp [byteAt, List.getD, h]

theorem getElem?_of_byteAt {s : List Byte} {i : Nat} (h : i < s.length) : s[i]? = some (byteAt s i) := by
  simp [byteAt, List.getD, h]

/-- A byte not there reads as 0 (log 12). -/
theorem byteAt_of_le {s : List Byte} {i : Nat} (h : s.length ≤ i) : byteAt s i = 0 := by
  simp [byteAt, List.getD, h]

@[simp] theorem byteAt_nil (i : Nat) : byteAt [] i = 0 := by simp [byteAt]

theorem byteAt_append_left {s t : List Byte} {i : Nat} (h : i < s.length) : byteAt (s ++ t) i = byteAt s i := by
  simp [byteAt, List.getD, List.getElem?_append_left h]

theorem byteAt_append_right {s t : List Byte} {i : Nat} (h : s.length ≤ i) : byteAt (s ++ t) i = byteAt t (i - s.length) := by
  simp [byteAt, List.getD, List.getElem?_append_right h]

theorem byteAt_concat_length (s : List Byte) (b : Byte) : byteAt (s ++ [b]) s.length = b := by
  simp [byteAt, List.getD]

/-- One more byte: it is read at the old length, and every other index reads as before. -/
theorem byteAt_concat (s : List Byte) (b : Byte) (i : Nat) : byteAt (s ++ [b]) i = if i = s.length then b else byteAt s i := by
  rcases Nat.lt_trichotomy i s.length with h | h | h
  · rw [byteAt_append_left h, if_neg (by omega)]
  · rw [if_pos h, h, byteAt_concat_length]
  · rw [if_neg (by omega), byteAt_of_le (by simp; omega), byteAt_of_le (by omega)]

theorem byteAt_take {s : List Byte} {i k : Nat} (h : i < k) : byteAt (s.take k) i = byteAt s i := by
  simp [byteAt, List.getD, h]

theorem slice_length {s : List Byte} {a b : Nat} (h : b ≤ s.length) : (slice s a b).length = b - a := by
  simp only [slice, List.length_take, List.length_drop]
  omega

theorem slice_append_left {s t : List Byte} {a b : Nat} (h : b ≤ s.length) : slice (s ++ t) a b = slice s a b := by
  rcases Nat.lt_or_ge b a with hab | hab
  · simp [slice, Nat.sub_eq_zero_of_le (Nat.le_of_lt hab)]
  · simp only [slice]
    rw [List.drop_append_of_le_length (by omega), List.take_append_of_le_length (by simp only [List.length_drop]; omega)]

@[simp] theorem slice_self (s : List Byte) (a : Nat) : slice s a a = [] := by simp [slice]

/-- The slice that starts behind a prefix. -/
theorem slice_append_right (s t u : List Byte) : slice (s ++ (t ++ u)) s.length (s.length + t.length) = t := by
  simp [slice]

end Sys2Proof.Machine
end

