-- ==== Sys2Proof/Laws/Profiles.lean ====
section
/-!
SUPPORT. The sizes of a well-formed profile, its header-field list and start bytes, and the capacity constant.
-/

namespace Sys2Proof

theorem Profile.WF.nStart_le {p : Profile} (h : p.WF) : p.nStart ≤ 2 := by
  rcases h.1 with h | h | h <;> omega

theorem Profile.WF.footer_cases {p : Profile} (h : p.WF) : p.footerSize = 0 ∨ p.footerSize = 2 := h.2.2.1

/-- `hdr_len(P)` counted from the flags (R140). -/
theorem Profile.hdrLen_eq (p : Profile) :
    p.hdrLen = p.hasSequence.toNat + p.hasSystemId.toNat + p.hasComponentId.toNat +
      (if p.hasLength then (if p.lengthWidth = 2 then 2 else 1) else 0) + p.hasPackageId.toNat + 1 := by
  unfold Profile.hdrLen Profile.fields
  cases p.hasSequence <;> cases p.hasSystemId <;> cases p.hasComponentId <;> cases p.hasLength <;> cases p.hasPackageId <;>
    by_cases h : p.lengthWidth = 2 <;> simp [h]

theorem Profile.hdrLen_pos (p : Profile) : 1 ≤ p.hdrLen := by
  rw [Profile.hdrLen_eq]; omega

theorem Profile.hdrLen_le (p : Profile) : p.hdrLen ≤ 7 := by
  rw [Profile.hdrLen_eq]
  have hb : ∀ b : Bool, b.toNat ≤ 1 := by decide
  have h1 := hb p.hasSequence
  have h2 := hb p.hasSystemId
  have h3 := hb p.hasComponentId
  have h4 := hb p.hasPackageId
  split
  · split <;> omega
  · omega

/-- `LW` of a well-formed profile. -/
theorem Profile.WF.lenBytes_eq {p : Profile} (h : p.WF) :
    p.lenBytes = if p.hasLength then (if p.lengthWidth = 2 then 2 else 1) else 0 := by
  unfold Profile.lenBytes
  rcases h.2.1 with h | h | h
  · simp [h]
  · simp [h]
  · simp [h]

/-- `header_size(P) = n_start + hdr_len(P)` for a well-formed profile (R141, R142). -/
theorem Profile.WF.headerSize_eq {p : Profile} (h : p.WF) : p.headerSize = p.nStart + p.hdrLen := by
  rw [Profile.hdrLen_eq, Profile.headerSize, h.lenBytes_eq]
  omega

theorem Profile.WF.stored_eq {p : Profile} (h : p.WF) : p.storedHeaderSize = p.headerSize := by
  rw [h.headerSize_eq, h.2.2.2]

theorem Profile.headerSize_pos (p : Profile) : 1 ≤ p.headerSize := by
  unfold Profile.headerSize; omega

theorem Profile.WF.startBytes_length {p : Profile} (h : p.WF) : p.startBytes.length = p.nStart := by
  unfold Profile.startBytes
  rcases h.1 with h | h | h <;> simp [h]

/-- The last header field is msg_id (R140). -/
theorem Profile.fields_last (p : Profile) : p.fields[p.hdrLen - 1]? = some .msg := by
  rw [Profile.hdrLen, ← List.getLast?_eq_getElem?, Profile.fields, List.getLast?_append]
  rfl

/-- `PAYLOAD_CAP` is at least 65535 (R8). -/
theorem payloadCap_ge : 65535 ≤ Config.payloadCap := by
  unfold Config.payloadCap; omega

/-- `PAYLOAD_CAP` is at most 2^32 - 1 (R8). -/
theorem payloadCap_le : Config.payloadCap ≤ 4294967295 := by
  have := Config.payloadCapExcess.isLt
  unfold Config.payloadCap
  omega

theorem withinPayloadCap_iff (n : Nat) : withinPayloadCap n = true ↔ n ≤ Config.payloadCap := by
  have := payloadCap_ge
  simp only [withinPayloadCap, Bool.or_eq_true, decide_eq_true_eq]
  omega

/-- An answer of a lookup that fits is within the capacity (R24). -/
theorem lookupLength_le {l : Lookup} {m : Byte} {n : Nat} (hl : lookupFits l = true) (h : lookupLength l m = some n) :
    n ≤ Config.payloadCap := by
  unfold lookupLength at h
  have : (m, n) ∈ l := by
    induction l with
    | nil => simp at h
    | cons e l ih =>
      rw [List.lookup_cons] at h
      split at h
      · rename_i hm
        have : m = e.1 := by simpa using hm
        simp only [Option.some.injEq] at h
        subst this h
        exact List.mem_cons_self
      · refine List.mem_cons_of_mem _ (ih ?_ h)
        simp only [lookupFits, List.all_cons, Bool.and_eq_true] at hl
        exact hl.2
  rw [← withinPayloadCap_iff]
  exact List.all_eq_true.mp hl _ this

end Sys2Proof
end

