-- ==== Sys2Proof/Laws/State.lean ====
section
/-!
SUPPORT. The fields of a state after each named update, so that no later proof unfolds one.
-/

namespace Sys2Proof.Machine

/-! ### Power-on -/

@[simp] theorem powerOn_chk (a b : Connection) : (State.powerOn a b).chk = ⟨0, 0⟩ := rfl
@[simp] theorem powerOn_sdec (a b : Connection) : (State.powerOn a b).sdec = Sdec.idle := rfl
@[simp] theorem powerOn_sdecConn (a b : Connection) : (State.powerOn a b).sdecConn = a := rfl
@[simp] theorem powerOn_acr (a b : Connection) : (State.powerOn a b).acr = ⟨Sdec.idle, []⟩ := rfl
@[simp] theorem powerOn_acrConn (a b : Connection) : (State.powerOn a b).acrConn = b := rfl
@[simp] theorem powerOn_requests (a b : Connection) : (State.powerOn a b).requests = [] := rfl
@[simp] theorem powerOn_result (a b : Connection) : (State.powerOn a b).result = .none := rfl

/-! ### The idle state and the full reset -/

@[simp] theorem idle_state : Sdec.idle.state = .lfs1 := rfl
@[simp] theorem idle_cursor : Sdec.idle.cursor = 0 := rfl
@[simp] theorem idle_payloadRemaining : Sdec.idle.payloadRemaining = 0 := rfl
@[simp] theorem idle_footerRemaining : Sdec.idle.footerRemaining = 0 := rfl
@[simp] theorem idle_buf : Sdec.idle.buf = [] := rfl
@[simp] theorem idle_seq : Sdec.idle.seq = 0 := rfl
@[simp] theorem idle_sysId : Sdec.idle.sysId = 0 := rfl
@[simp] theorem idle_compId : Sdec.idle.compId = 0 := rfl
@[simp] theorem idle_lenField : Sdec.idle.lenField = 0 := rfl
@[simp] theorem idle_pkgId : Sdec.idle.pkgId = 0 := rfl
@[simp] theorem idle_msgId : Sdec.idle.msgId = 0 := rfl
@[simp] theorem idle_payloadLen : Sdec.idle.payloadLen = 0 := rfl
@[simp] theorem fullReset_eq (d : Sdec) : fullReset d = Sdec.idle := rfl

/-! ### Requests -/

@[simp] theorem placeRequest_chk (s : State) (r : List Byte) : (placeRequest s r).chk = s.chk := rfl
@[simp] theorem placeRequest_sdec (s : State) (r : List Byte) : (placeRequest s r).sdec = s.sdec := rfl
@[simp] theorem placeRequest_sdecConn (s : State) (r : List Byte) : (placeRequest s r).sdecConn = s.sdecConn := rfl
@[simp] theorem placeRequest_acr (s : State) (r : List Byte) : (placeRequest s r).acr = s.acr := rfl
@[simp] theorem placeRequest_acrConn (s : State) (r : List Byte) : (placeRequest s r).acrConn = s.acrConn := rfl
@[simp] theorem placeRequest_requests (s : State) (r : List Byte) : (placeRequest s r).requests = r :: s.requests := rfl
@[simp] theorem placeRequest_result (s : State) (r : List Byte) : (placeRequest s r).result = s.result := rfl

@[simp] theorem issueRequest_requests (s : State) (r : List Byte) : (issueRequest s r).requests = s.requests ++ [r] := rfl

@[simp] theorem takeRequest_nil (s : State) (h : s.requests = []) : takeRequest s = none := by
  simp [takeRequest, h]

@[simp] theorem takeRequest_cons (s : State) (r : List Byte) (rest : List (List Byte)) (h : s.requests = r :: rest) :
    takeRequest s = some (r, { s with requests := rest }) := by
  simp [takeRequest, h]

/-! ### Writing a header-field register -/

@[simp] theorem writeField_state (d : Sdec) (t : Tag) (b : Byte) : (writeField d t b).state = d.state := by cases t <;> rfl
@[simp] theorem writeField_cursor (d : Sdec) (t : Tag) (b : Byte) : (writeField d t b).cursor = d.cursor := by cases t <;> rfl
@[simp] theorem writeField_buf (d : Sdec) (t : Tag) (b : Byte) : (writeField d t b).buf = d.buf := by cases t <;> rfl
@[simp] theorem writeField_payloadLen (d : Sdec) (t : Tag) (b : Byte) : (writeField d t b).payloadLen = d.payloadLen := by
  cases t <;> rfl
@[simp] theorem writeField_payloadRemaining (d : Sdec) (t : Tag) (b : Byte) :
    (writeField d t b).payloadRemaining = d.payloadRemaining := by cases t <;> rfl
@[simp] theorem writeField_footerRemaining (d : Sdec) (t : Tag) (b : Byte) :
    (writeField d t b).footerRemaining = d.footerRemaining := by cases t <;> rfl
@[simp] theorem writeField_seq (d : Sdec) (t : Tag) (b : Byte) :
    (writeField d t b).seq = if t = .seq then b else d.seq := by cases t <;> rfl
@[simp] theorem writeField_sysId (d : Sdec) (t : Tag) (b : Byte) :
    (writeField d t b).sysId = if t = .sys then b else d.sysId := by cases t <;> rfl
@[simp] theorem writeField_compId (d : Sdec) (t : Tag) (b : Byte) :
    (writeField d t b).compId = if t = .comp then b else d.compId := by cases t <;> rfl
@[simp] theorem writeField_lenField (d : Sdec) (t : Tag) (b : Byte) :
    (writeField d t b).lenField =
      if t = .len0 then b.setWidth 16 else if t = .len1 then d.lenField + 256#16 * b.setWidth 16 else d.lenField := by
  cases t <;> rfl
@[simp] theorem writeField_pkgId (d : Sdec) (t : Tag) (b : Byte) :
    (writeField d t b).pkgId = if t = .pkg then b else d.pkgId := by cases t <;> rfl
@[simp] theorem writeField_msgId (d : Sdec) (t : Tag) (b : Byte) :
    (writeField d t b).msgId = if t = .msg then b else d.msgId := by cases t <;> rfl

end Sys2Proof.Machine
end

