-- ==== Sys2Proof/Laws/Ops.lean ====
section
/-!
SUPPORT. What each shared operation can answer.
-/

namespace Sys2Proof.Machine

@[simp] theorem complete_eq (s : State) (r : Result) : complete s r = .next { s with result := r } := rfl

/-- An operation on a well-formed profile is not refused for its profile. -/
theorem withProfile_wf {p : Profile} (h : p.WF) (k : Answer) : withProfile p k = k := if_pos h

theorem withProfile_not_wf {p : Profile} (h : ¬ p.WF) (k : Answer) :
    withProfile p k = .refused .illFormedConfiguration := if_neg h

/-- If an operation on a profile answers a next state, the profile is well-formed and the operation answers it. -/
theorem withProfile_next {p : Profile} {k : Answer} {t : State} (h : withProfile p k = .next t) : p.WF ∧ k = .next t := by
  unfold withProfile at h
  split at h
  · rename_i hp
    exact ⟨hp, h⟩
  · cases h

theorem withDecoder_ready {p : Profile} {l : Lookup} (h : p.WF) (hl : p.hasLength = true ∨ lookupFits l = true) (k : Answer) :
    withDecoder p l k = k := by
  rw [withDecoder, withProfile_wf h, if_pos hl]

/-- If a decoding operation answers a next state, its configuration is admitted and the operation answers it. -/
theorem withDecoder_next {p : Profile} {l : Lookup} {k : Answer} {t : State} (h : withDecoder p l k = .next t) :
    p.WF ∧ (p.hasLength = true ∨ lookupFits l = true) ∧ k = .next t := by
  obtain ⟨hp, h⟩ := withProfile_next h
  split at h
  · rename_i hl
    exact ⟨hp, hl, h⟩
  · cases h

/-- Completion leaves the instance idle, whatever the checksum says (R190). -/
@[simp] theorem completeFrame_dec (p : Profile) (d : Sdec) : (completeFrame p d).dec = Sdec.idle := by
  unfold completeFrame
  split <;> rfl

/-- Completion answers `VALID` where the profile has no footer or the checksum is right, else `INVALID` (R190). -/
theorem completeFrame_res (p : Profile) (d : Sdec) :
    (completeFrame p d).res =
      if 0 < p.footerSize ∧ checksumOk p d.buf d.buf.length = false then none
      else some (validFrame d.msgId d.pkgId (slice d.buf p.headerSize (p.headerSize + d.payloadLen))) := by
  unfold completeFrame
  split <;> rfl

/-- A row whose rule is what SDEC.STEP dispatches to in the row's state is an SDEC.STEP in every state (R181). -/
theorem stepByRow_eq {q : SdecState} {rule : StepOut} {b : Byte} {s : State}
    (h : s.sdec.state = q → rule = sdecStep s.sdecConn.profile s.sdecConn.lookup s.sdec b) :
    stepByRow q rule b s = execSdecStep b s := by
  unfold stepByRow execSdecStep
  split
  · rw [h ‹_›]
  · rfl

/-- Everything a per-byte rule can do to the machine. -/
theorem sdecByte_next {o : StepOut} {s t : State} (h : sdecByte o s = .next t) :
    s.sdecConn.Ready ∧ t = { s with sdec := o.dec, result := .parse o.res } := by
  obtain ⟨hp, hl, h⟩ := withDecoder_next h
  simp only [complete_eq, Host.Outcome.next.injEq] at h
  exact ⟨⟨hp, hl⟩, h.symm⟩

theorem sdecByte_ready {o : StepOut} {s : State} (h : s.sdecConn.Ready) :
    sdecByte o s = .next { s with sdec := o.dec, result := .parse o.res } := by
  rw [sdecByte, withDecoder_ready h.1 h.2, complete_eq]

/-- Everything a one-shot validation can do to the machine. -/
theorem validateOp_next {p : Profile} {buffer : List Byte} {l : Option Lookup} {s t : State}
    (h : validateOp p buffer l s = .next t) :
    p.WF ∧ (p.hasLength = true ∨ lookupFits (l.getD []) = true) ∧
      t = { s with result := .parse (validateResult p buffer (l.getD [])) } := by
  obtain ⟨hp, hl, h⟩ := withDecoder_next h
  simp only [complete_eq, Host.Outcome.next.injEq] at h
  exact ⟨hp, hl, h.symm⟩

theorem validateOp_ready {p : Profile} {buffer : List Byte} {l : Option Lookup} (s : State) (hp : p.WF)
    (hl : p.hasLength = true ∨ lookupFits (l.getD []) = true) :
    validateOp p buffer l s = .next { s with result := .parse (validateResult p buffer (l.getD [])) } := by
  rw [validateOp, withDecoder_ready hp hl, complete_eq]

end Sys2Proof.Machine
end

