-- ==== Sys2Proof/Laws/Dec.lean ====
section
/-!
SUPPORT. When the one-shot decoder accepts, and that it reads nothing behind the frame.
-/

namespace Sys2Proof.Machine

/-- Everything DEC.VALIDATE checks, and what it answers where all checks pass (R160). -/
theorem validate_ok_iff (p : Profile) (buffer : List Byte) (l : Lookup) (q : Parsed) :
    validate p buffer l = .ok q ↔
      p.overhead ≤ buffer.length ∧ startBytesMatch p buffer = true ∧
      ∃ n, payloadLength p l buffer = some n ∧ totalSize p n ≤ buffer.length ∧
        (0 < p.footerSize → checksumOk p buffer (totalSize p n) = true) ∧
        q = validFrame (byteAt buffer (offMsg p)) (pkgIdOf p buffer)
          (slice buffer p.headerSize (p.headerSize + n)) := by
  unfold validate
  split
  · rename_i h
    constructor
    · intro h'; cases h'
    · rintro ⟨h', -⟩; omega
  · rename_i h1
    split
    · rename_i h
      constructor
      · intro h'; cases h'
      · rintro ⟨-, h', -⟩; rw [h] at h'; cases h'
    · rename_i h2
      rw [Bool.not_eq_false] at h2
      cases hn : payloadLength p l buffer with
      | none =>
        simp
      | some n =>
        simp only [Option.some.injEq, exists_eq_left']
        split
        · rename_i h
          constructor
          · intro h'; cases h'
          · rintro ⟨-, -, h', -⟩; omega
        · rename_i h3
          split
          · rename_i h
            constructor
            · intro h'; cases h'
            · rintro ⟨-, -, -, h', -⟩
              rw [h' h.1] at h
              cases h.2
          · rename_i h4
            have h4' : 0 < p.footerSize → checksumOk p buffer (totalSize p n) = true := by
              intro hf
              by_contra hc
              exact h4 ⟨hf, Bool.not_eq_true _ ▸ hc⟩
            constructor
            · intro h'
              simp only [Except.ok.injEq] at h'
              exact ⟨by omega, h2, by omega, h4', h'.symm⟩
            · rintro ⟨-, -, -, -, rfl⟩
              rfl

theorem validateResult_some_iff (p : Profile) (buffer : List Byte) (l : Lookup) (q : Parsed) :
    validateResult p buffer l = some q ↔ validate p buffer l = .ok q := by
  unfold validateResult
  cases validate p buffer l <;> simp [Except.toOption]

/-- A result is `VALID` or `INVALID`: nothing else distinguishes the failing checks (R227). -/
theorem validateResult_none_iff (p : Profile) (buffer : List Byte) (l : Lookup) :
    validateResult p buffer l = none ↔ ∀ q, validate p buffer l ≠ .ok q := by
  unfold validateResult
  cases validate p buffer l <;> simp [Except.toOption]

end Sys2Proof.Machine
end

