-- ==== Sys2Proof/Laws/StreamingDecoder.lean ====
section
/-!
SUPPORT. The streaming decoder: which rule each state runs, which field the cursor names, and that one byte keeps the
invariant of 10_state.md R39.
-/

namespace Sys2Proof.Machine

/-! ### Dispatch (R181) -/

theorem sdecStep_lfs1 {d : Sdec} (h : d.state = .lfs1) (p : Profile) (l : Lookup) (b : Byte) :
    sdecStep p l d b = stepLfs1 p l d b := by simp [sdecStep, h]

theorem sdecStep_lfs2 {d : Sdec} (h : d.state = .lfs2) (p : Profile) (l : Lookup) (b : Byte) :
    sdecStep p l d b = stepLfs2 p d b := by simp [sdecStep, h]

theorem sdecStep_hdr {d : Sdec} (h : d.state = .hdr) (p : Profile) (l : Lookup) (b : Byte) :
    sdecStep p l d b = stepHdr p l d b := by simp [sdecStep, h]

theorem sdecStep_pay {d : Sdec} (h : d.state = .pay) (p : Profile) (l : Lookup) (b : Byte) :
    sdecStep p l d b = stepPay p d b := by simp [sdecStep, h]

theorem sdecStep_ftr {d : Sdec} (h : d.state = .ftr) (p : Profile) (l : Lookup) (b : Byte) :
    sdecStep p l d b = stepFtr p d b := by simp [sdecStep, h]

/-! ### The fields of the header (R140, R92) -/

/-- The header-field list as a function of its six flags, and the place of every field in it, by enumeration (R140). -/
theorem field_places : ∀ sq sy co ln wide pk : Bool, ∀ k : Fin 7,
    let fs := (if sq then [Tag.seq] else []) ++ (if sy then [Tag.sys] else []) ++ (if co then [Tag.comp] else []) ++
      (if ln then [Tag.len0] else []) ++ (if ln && wide then [Tag.len1] else []) ++ (if pk then [Tag.pkg] else []) ++ [Tag.msg]
    let len := sq.toNat + sy.toNat + co.toNat
    let pkg := len + (if ln then (if wide then 2 else 1) else 0)
    k.val < fs.length →
      (match fs[k.val]? with
      | none => false
      | some t =>
        decide (t = .seq ↔ sq = true ∧ 0 = k.val) && decide (t = .sys ↔ sy = true ∧ sq.toNat = k.val) &&
        decide (t = .comp ↔ co = true ∧ sq.toNat + sy.toNat = k.val) && decide (t = .len0 ↔ ln = true ∧ len = k.val) &&
        decide (t = .len1 ↔ ln = true ∧ wide = true ∧ len + 1 = k.val) && decide (t = .pkg ↔ pk = true ∧ pkg = k.val) &&
        decide (t = .msg ↔ pkg + pk.toNat = k.val)) = true := by
  decide

/-- The cursor names a field, and it is the one whose offset is `n_start` plus the cursor: "The byte of frame index
`P.n_start + k` carries the field `FIELDS(P)[k]`" (R140). -/
theorem field_at_cursor {p : Profile} (hp : p.WF) {k : Nat} (hk : k < p.hdrLen) :
    ∃ t : Tag, p.fields[k]? = some t ∧
      (t = .seq ↔ p.hasSequence = true ∧ offSeq p = p.nStart + k) ∧
      (t = .sys ↔ p.hasSystemId = true ∧ offSys p = p.nStart + k) ∧
      (t = .comp ↔ p.hasComponentId = true ∧ offComp p = p.nStart + k) ∧
      (t = .len0 ↔ p.hasLength = true ∧ offLen p = p.nStart + k) ∧
      (t = .len1 ↔ p.hasLength = true ∧ p.lengthWidth = 2 ∧ offLen p + 1 = p.nStart + k) ∧
      (t = .pkg ↔ p.hasPackageId = true ∧ offPkg p = p.nStart + k) ∧
      (t = .msg ↔ offMsg p = p.nStart + k) := by
  have hk7 : k < 7 := Nat.lt_of_lt_of_le hk p.hdrLen_le
  have key := field_places p.hasSequence p.hasSystemId p.hasComponentId p.hasLength (decide (p.lengthWidth = 2))
    p.hasPackageId ⟨k, hk7⟩
  have hfs : p.fields = (if p.hasSequence then [Tag.seq] else []) ++ (if p.hasSystemId then [Tag.sys] else []) ++
      (if p.hasComponentId then [Tag.comp] else []) ++ (if p.hasLength then [Tag.len0] else []) ++
      (if p.hasLength && decide (p.lengthWidth = 2) then [Tag.len1] else []) ++
      (if p.hasPackageId then [Tag.pkg] else []) ++ [Tag.msg] := by
    simp only [Profile.fields, Bool.and_eq_true, decide_eq_true_eq]
  dsimp only at key
  rw [← hfs] at key
  have key := key hk
  obtain ⟨t, ht⟩ : ∃ t, p.fields[k]? = some t := ⟨_, List.getElem?_eq_getElem hk⟩
  rw [ht] at key
  simp only [Bool.and_eq_true, decide_eq_true_eq] at key
  obtain ⟨⟨⟨⟨⟨⟨h1, h2⟩, h3⟩, h4⟩, h5⟩, h6⟩, h7⟩ := key
  simp only [offMsg, offPkg, offLen, offComp, offSys, offSeq, hp.lenBytes_eq]
  refine ⟨t, ht, h1.trans (and_congr_right fun _ => ?_), h2.trans (and_congr_right fun _ => ?_),
    h3.trans (and_congr_right fun _ => ?_), h4.trans (and_congr_right fun _ => ?_),
    h5.trans (and_congr_right fun _ => and_congr_right fun _ => ?_), h6.trans (and_congr_right fun _ => ?_), h7.trans ?_⟩ <;>
    omega

/-- At a cursor in the header the byte goes to the field of that offset. -/
theorem writeAtCursor_eq {p : Profile} {d : Sdec} {t : Tag} (h : p.fields[d.cursor]? = some t) (b : Byte) :
    writeAtCursor p d b = writeField d t b := by
  simp [writeAtCursor, h]

end Sys2Proof.Machine
end

