-- ==== Sys2Proof/Laws/SdecInvariant.lean ====
section
/-!
SUPPORT. One byte keeps the invariant of an SDEC instance (10_state.md R39).
-/

namespace Sys2Proof.Machine

theorem idle_fieldsAgree (p : Profile) : FieldsAgree p Sdec.idle where
  seq := by simp
  sysId := by simp
  compId := by simp
  lenField := by simp [decodeLen]
  pkgId := by simp [pkgIdOf]
  msgId := by simp

theorem idle_inv {c : Connection} (h : c.profile.WF) : SdecInv c Sdec.idle :=
  ⟨h, idle_fieldsAgree _, rfl⟩

/-- The fields agree for any state that differs only outside the field registers and the header part of the buffer. -/
theorem FieldsAgree.transfer {p : Profile} {d d' : Sdec} (h : FieldsAgree p d)
    (hbuf : ∀ i, i < p.headerSize → byteAt d'.buf i = byteAt d.buf i)
    (h1 : d'.seq = d.seq) (h2 : d'.sysId = d.sysId) (h3 : d'.compId = d.compId) (h4 : d'.lenField = d.lenField)
    (h5 : d'.pkgId = d.pkgId) (h6 : d'.msgId = d.msgId) (hp : p.WF) : FieldsAgree p d' := by
  have hb := hp.lenBytes_eq
  have e : p.headerSize = offMsg p + 1 := by unfold Profile.headerSize offMsg offLen; omega
  have le1 : p.hasSequence.toNat ≤ 1 := Bool.toNat_le _
  refine ⟨?_, ?_, ?_, ?_, ?_, ?_⟩
  · rw [h1, h.seq]
    split
    · rw [hbuf _ (by simp_all [offSeq, offMsg, offLen]; omega)]
    · rfl
  · rw [h2, h.sysId]
    split
    · rw [hbuf _ (by simp_all [offSys, offMsg, offLen]; omega)]
    · rfl
  · rw [h3, h.compId]
    split
    · rw [hbuf _ (by simp_all [offComp, offMsg, offLen]; omega)]
    · rfl
  · rw [h4, h.lenField]
    split
    · rename_i hl
      simp only [hl, if_true] at hb
      unfold decodeLen
      split
      · rename_i hw
        rw [hbuf _ (by simp_all [offMsg]; omega), hbuf _ (by simp_all [offMsg]; omega)]
      · rename_i hw
        rw [hbuf _ (by simp_all [offMsg]; omega)]
    · rfl
  · rw [h5, h.pkgId]
    unfold pkgIdOf
    split
    · rw [hbuf _ (by simp_all [offPkg, offMsg])]
    · rfl
  · rw [h6, h.msgId, hbuf _ (by omega)]

/-- A header byte appended and written at the cursor keeps the fields in agreement with the buffer. -/
theorem FieldsAgree.headerByte {p : Profile} {d : Sdec} (hp : p.WF) (h : FieldsAgree p d)
    (hlen : d.buf.length = p.nStart + d.cursor) (hc : d.cursor < p.hdrLen) (b : Byte) :
    FieldsAgree p (writeAtCursor p { d with buf := d.buf ++ [b] } b) := by
  obtain ⟨t, ht, h1, h2, h3, h4, h5, h6, h7⟩ := field_at_cursor hp hc
  rw [writeAtCursor_eq (d := { d with buf := d.buf ++ [b] }) ht]
  rw [← hlen] at h1 h2 h3 h4 h5 h6 h7
  refine ⟨?_, ?_, ?_, ?_, ?_, ?_⟩
  · simp only [writeField_seq, writeField_buf, byteAt_concat, h.seq]
    cases hs : p.hasSequence <;> simp [h1, hs]
  · simp only [writeField_sysId, writeField_buf, byteAt_concat, h.sysId]
    cases hs : p.hasSystemId <;> simp [h2, hs]
  · simp only [writeField_compId, writeField_buf, byteAt_concat, h.compId]
    cases hs : p.hasComponentId <;> simp [h3, hs]
  · have hf := h.lenField
    simp only [writeField_lenField, writeField_buf, decodeLen, byteAt_concat]
    cases hl : p.hasLength with
    | false =>
      have n4 : t ≠ .len0 := fun e => by simp [h4.mp e |>.1] at hl
      have n5 : t ≠ .len1 := fun e => by simp [h5.mp e |>.1] at hl
      simpa [n4, n5, hl] using hf
    | true =>
      simp only [hl, if_true, decodeLen] at hf
      by_cases e4 : t = .len0
      · have ho := (h4.mp e4).2
        simp only [e4, if_true, ho, BitVec.toNat_setWidth]
        have hb := b.isLt
        split
        · have z : (byteAt d.buf (offLen p + 1)).toNat = 0 := by rw [byteAt_of_le (by omega)]; rfl
          rw [← ho, if_neg (by omega), z]
          omega
        · omega
      · have n4 : offLen p ≠ d.buf.length := fun e => e4 (h4.mpr ⟨hl, e⟩)
        by_cases e5 : t = .len1
        · obtain ⟨-, hw, ho⟩ := h5.mp e5
          have z : (byteAt d.buf (offLen p + 1)).toNat = 0 := by rw [byteAt_of_le (by omega)]; rfl
          simp only [hw, if_true, z] at hf
          simp only [hw, e5, if_true, n4, if_false, ho, BitVec.toNat_add, BitVec.toNat_mul, BitVec.toNat_setWidth,
            BitVec.toNat_ofNat, reduceCtorEq]
          have hb := b.isLt
          have hb' := (byteAt d.buf (offLen p)).isLt
          omega
        · simp only [e4, e5, if_false, n4, hf, if_true]
          by_cases hw : p.lengthWidth = 2
          · have n5 : offLen p + 1 ≠ d.buf.length := fun e => e5 (h5.mpr ⟨hl, hw, e⟩)
            simp [hw, n5]
          · simp [hw]
  · simp only [writeField_pkgId, writeField_buf, pkgIdOf, byteAt_concat, h.pkgId]
    cases hs : p.hasPackageId <;> simp [h6, hs]
  · simp only [writeField_msgId, writeField_buf, byteAt_concat, h.msgId]
    simp [h7]

/-- The length a header declares is read from the header alone. -/
theorem payloadLength_congr {p : Profile} (hp : p.WF) (l : Lookup) {s s' : List Byte}
    (h : ∀ i, i < p.headerSize → byteAt s' i = byteAt s i) : payloadLength p l s' = payloadLength p l s := by
  have hb := hp.lenBytes_eq
  have e : p.headerSize = offMsg p + 1 := by unfold Profile.headerSize offMsg offLen; omega
  unfold payloadLength
  cases hl : p.hasLength with
  | false => simp only [Bool.false_eq_true, if_false, h _ (show offMsg p < p.headerSize by omega)]
  | true =>
    simp only [hl, if_true] at hb
    simp only [if_true, decodeLen]
    split
    · rename_i hw
      rw [h _ (by simp_all [offMsg]; omega), h _ (by simp_all [offMsg]; omega)]
    · rename_i hw
      rw [h _ (by simp_all [offMsg]; omega)]

/-- The length a complete header declares, from the registers (R187). -/
theorem payloadLength_of_fields {p : Profile} {d : Sdec} (h : FieldsAgree p d) (l : Lookup) :
    payloadLength p l d.buf = if p.hasLength then some d.lenField.toNat else lookupLength l d.msgId := by
  unfold payloadLength
  split
  · rename_i hl
    rw [h.lenField, if_pos hl]
  · rw [h.msgId]

/-- What a header in progress has consumed (R39, state HDR, with or without its first byte). -/
structure HeaderSoFar (p : Profile) (d : Sdec) : Prop where
  fields : FieldsAgree p d
  length : d.buf.length = p.nStart + d.cursor
  cursor : d.cursor < p.hdrLen
  start  : d.buf.take p.nStart = p.startBytes
  idle   : d.payloadRemaining = 0 ∧ d.footerRemaining = 0 ∧ d.payloadLen = 0

theorem take_append_of_header {p : Profile} {s t : List Byte} (h : p.nStart ≤ s.length) :
    (s ++ t).take p.nStart = s.take p.nStart := List.take_append_of_le_length h

/-- Entering the payload, or skipping it, keeps the invariant (R187). -/
theorem startPayload_inv {c : Connection} {d : Sdec} {n : Nat} (hp : c.profile.WF) (hf : FieldsAgree c.profile d)
    (hlen : d.buf.length = c.profile.headerSize) (hs : d.buf.take c.profile.nStart = c.profile.startBytes)
    (hn : payloadLength c.profile c.lookup d.buf = some n) : SdecInv c (startPayload c.profile d n).dec := by
  unfold startPayload accumulate
  dsimp only
  split
  · rename_i h0
    exact ⟨hp, hf.transfer (fun _ _ => rfl) rfl rfl rfl rfl rfl rfl hp, h0, Nat.le_refl _, by simp [hlen], rfl, hs, hn⟩
  · split
    · rename_i h0 h1
      have hn0 : n = 0 := by omega
      have h2 : c.profile.footerSize = 2 := by rcases hp.footer_cases with h | h <;> omega
      subst hn0
      exact ⟨hp, hf.transfer (fun _ _ => rfl) rfl rfl rfl rfl rfl rfl hp, h2, by simp [h2], by simp [h2], rfl,
        by simp [hlen, h2], hs, hn⟩
    · rw [completeFrame_dec]
      exact idle_inv hp

/-- A header byte keeps the invariant (R186, R187). -/
theorem stepHdr_inv {c : Connection} {d : Sdec} (hp : c.profile.WF) (hh : HeaderSoFar c.profile d) (hst : d.state = .hdr)
    (b : Byte) : SdecInv c (stepHdr c.profile c.lookup d b).dec := by
  obtain ⟨hf, hlen, hc, hs, hi1, hi2, hi3⟩ := hh
  obtain ⟨t, ht, -⟩ := field_at_cursor hp hc
  have hf' := hf.headerByte hp hlen hc b
  have hw : writeAtCursor c.profile { d with buf := d.buf ++ [b] } b = writeField { d with buf := d.buf ++ [b] } t b :=
    writeAtCursor_eq (d := { d with buf := d.buf ++ [b] }) ht b
  have hbuf : (writeAtCursor c.profile { d with buf := d.buf ++ [b] } b).buf = d.buf ++ [b] := by rw [hw, writeField_buf]
  have hs' : (d.buf ++ [b]).take c.profile.nStart = c.profile.startBytes := by
    rw [take_append_of_header (by omega), hs]
  unfold stepHdr
  dsimp only
  split
  · rename_i hend
    have hf'' : FieldsAgree c.profile { writeAtCursor c.profile { d with buf := d.buf ++ [b] } b with cursor := d.cursor + 1 } :=
      hf'.transfer (fun _ _ => rfl) rfl rfl rfl rfl rfl rfl hp
    have hl' : ({ writeAtCursor c.profile { d with buf := d.buf ++ [b] } b with cursor := d.cursor + 1 } : Sdec).buf.length =
        c.profile.headerSize := by
      show (writeAtCursor c.profile { d with buf := d.buf ++ [b] } b).buf.length = c.profile.headerSize
      rw [hbuf, hp.headerSize_eq, List.length_append, hlen, ← hend, List.length_singleton]
      omega
    have hpl := payloadLength_of_fields hf'' c.lookup
    have hs'' : ({ writeAtCursor c.profile { d with buf := d.buf ++ [b] } b with cursor := d.cursor + 1 } : Sdec).buf.take
        c.profile.nStart = c.profile.startBytes := by
      show (writeAtCursor c.profile { d with buf := d.buf ++ [b] } b).buf.take _ = _
      rw [hbuf, hs']
    unfold endHeader
    split
    · rename_i hl
      rw [if_pos hl] at hpl
      exact startPayload_inv hp hf'' hl' hs'' hpl
    · rename_i hl
      rw [if_neg hl] at hpl
      split
      · exact idle_inv hp
      · rename_i n hn
        rw [hn] at hpl
        exact startPayload_inv hp hf'' hl' hs'' hpl
  · rename_i hend
    refine ⟨hp, hf'.transfer (fun _ _ => rfl) rfl rfl rfl rfl rfl rfl hp, ?_⟩
    have e : (accumulate { writeAtCursor c.profile { d with buf := d.buf ++ [b] } b with cursor := d.cursor + 1 }).dec =
      { writeField { d with buf := d.buf ++ [b] } t b with cursor := d.cursor + 1 } := by rw [hw]; rfl
    rw [e]
    simp only [stateInv, writeField_state, hst, writeField_buf, writeField_payloadRemaining, writeField_footerRemaining,
      writeField_payloadLen, List.length_append, List.length_singleton]
    exact ⟨by omega, by omega, hs', by omega, hi1, hi2, hi3⟩

/-- One byte keeps the invariant (R39). -/
theorem sdecStep_inv {c : Connection} {d : Sdec} (h : SdecInv c d) (b : Byte) :
    SdecInv c (sdecStep c.profile c.lookup d b).dec := by
  obtain ⟨hp, hf, hs⟩ := h
  have happ : ∀ i, i < d.buf.length → byteAt (d.buf ++ [b]) i = byteAt d.buf i := fun i hi => byteAt_append_left hi
  cases hst : d.state with
  | lfs1 =>
    simp only [stateInv, hst] at hs
    rw [sdecStep_lfs1 hst]
    unfold stepLfs1
    split
    · rename_i h0
      refine stepHdr_inv hp ⟨?_, ?_, ?_, ?_, ?_⟩ rfl b
      · refine hf.transfer (fun i _ => ?_) rfl rfl rfl rfl rfl rfl hp
        rw [hs]
        rfl
      · simp [h0]
      · exact c.profile.hdrLen_pos
      · simp [h0, Profile.startBytes]
      · rw [hs]
        exact ⟨rfl, rfl, rfl⟩
    · rename_i h0
      split
      · rename_i hb
        have hfa : ∀ q : SdecState, FieldsAgree c.profile { d with buf := [b], cursor := 0, state := q } := by
          intro q
          have z : ∀ i, 1 ≤ i → byteAt [b] i = 0 := fun i hi => byteAt_of_le (by simpa using hi)
          subst hs
          have o1 : 1 ≤ offSeq c.profile := by unfold offSeq; omega
          have o2 : 1 ≤ offSys c.profile := by unfold offSys; omega
          have o3 : 1 ≤ offComp c.profile := by unfold offComp; omega
          have o4 : 1 ≤ offLen c.profile := by unfold offLen; omega
          refine ⟨?_, ?_, ?_, ?_, ?_, ?_⟩
          · simp [z _ o1]
          · simp [z _ o2]
          · simp [z _ o3]
          · simp [decodeLen, z _ o4, z (offLen c.profile + 1) (by omega)]
          · simp [pkgIdOf, z (offPkg c.profile) (by unfold offPkg; omega)]
          · simp [z (offMsg c.profile) (by unfold offMsg; omega)]
        rcases hp.1 with hn | hn | hn
        · omega
        · rw [if_neg (by omega)]
          refine ⟨hp, hfa _, ?_⟩
          show stateInv c.profile c.lookup { d with buf := [b], cursor := 0, state := .hdr }
          refine ⟨by simp [hn], c.profile.hdrLen_pos, by simp [hn, Profile.startBytes, hb], by omega, ?_⟩
          rw [hs]
          exact ⟨rfl, rfl, rfl⟩
        · rw [if_pos hn]
          refine ⟨hp, hfa _, ?_⟩
          show stateInv c.profile c.lookup { d with buf := [b], cursor := 0, state := .lfs2 }
          refine ⟨hn, by rw [hb], rfl, ?_⟩
          rw [hs]
          exact ⟨rfl, rfl, rfl⟩
      · refine ⟨hp, hf, ?_⟩
        show stateInv c.profile c.lookup d
        simpa only [stateInv, hst] using hs
  | lfs2 =>
    simp only [stateInv, hst] at hs
    obtain ⟨hn, hbuf, hcur, hi⟩ := hs
    rw [sdecStep_lfs2 hst]
    unfold stepLfs2
    have z : ∀ i, 2 ≤ i → ∀ x y : Byte, byteAt [x, y] i = 0 := fun i hi _ _ => byteAt_of_le (by simpa using hi)
    have hsz : ∀ i, c.profile.nStart ≤ i → byteAt d.buf i = 0 := fun i hi => byteAt_of_le (by simp [hbuf]; omega)
    split
    · rename_i hb
      refine ⟨hp, ?_, ?_⟩
      · have o1 : 2 ≤ offSeq c.profile := by unfold offSeq; omega
        have o2 : 2 ≤ offSys c.profile := by unfold offSys; omega
        have o3 : 2 ≤ offComp c.profile := by unfold offComp; omega
        have o4 : 2 ≤ offLen c.profile := by unfold offLen; omega
        have o5 : 2 ≤ offPkg c.profile := by unfold offPkg; omega
        have o6 : 2 ≤ offMsg c.profile := by unfold offMsg; omega
        have e : (accumulate { d with buf := d.buf ++ [b], cursor := 0, state := .hdr }).dec.buf = [c.profile.start1, b] := by
          show d.buf ++ [b] = _
          rw [hbuf]
          rfl
        refine ⟨?_, ?_, ?_, ?_, ?_, ?_⟩
        · rw [e, z _ o1]
          show d.seq = _
          rw [hf.seq, hsz _ (by omega)]
        · rw [e, z _ o2]
          show d.sysId = _
          rw [hf.sysId, hsz _ (by omega)]
        · rw [e, z _ o3]
          show d.compId = _
          rw [hf.compId, hsz _ (by omega)]
        · rw [e]
          show d.lenField.toNat = _
          rw [hf.lenField, decodeLen, decodeLen, z _ o4, z _ (by omega), hsz _ (by omega), hsz _ (by omega)]
        · rw [e, pkgIdOf, z _ o5]
          show d.pkgId = _
          rw [hf.pkgId, pkgIdOf, hsz _ (by omega)]
        · rw [e, z _ o6]
          show d.msgId = _
          rw [hf.msgId, hsz _ (by omega)]
      · show stateInv c.profile c.lookup { d with buf := d.buf ++ [b], cursor := 0, state := .hdr }
        exact ⟨by simp [hbuf, hn], c.profile.hdrLen_pos, by simp [hbuf, hn, Profile.startBytes, hb], by omega, hi⟩
    · split
      · rename_i hb
        have e : (accumulate { d with buf := [b], state := .lfs2 }).dec = d := by
          show { d with buf := [b], state := .lfs2 } = d
          rw [hb, ← hbuf, ← hst]
        rw [e]
        exact ⟨hp, hf, by simpa only [stateInv, hst] using ⟨hn, hbuf, hcur, hi⟩⟩
      · exact idle_inv hp
  | hdr =>
    have hs' := hs
    simp only [stateInv, hst] at hs'
    rw [sdecStep_hdr hst]
    exact stepHdr_inv hp ⟨hf, hs'.1, hs'.2.1, hs'.2.2.1, hs'.2.2.2.2⟩ hst b
  | pay =>
    simp only [stateInv, hst] at hs
    obtain ⟨h1, h2, h3, h4, h5, h6⟩ := hs
    have hlt : c.profile.headerSize ≤ d.buf.length := by omega
    have hns : c.profile.nStart ≤ d.buf.length := by have := hp.headerSize_eq; omega
    have hfa : ∀ i, i < c.profile.headerSize → byteAt (d.buf ++ [b]) i = byteAt d.buf i := fun i hi => happ i (by omega)
    have h6' : payloadLength c.profile c.lookup (d.buf ++ [b]) = some d.payloadLen := by
      rw [payloadLength_congr hp _ hfa, h6]
    rw [sdecStep_pay hst]
    unfold stepPay
    dsimp only
    split
    · rename_i hr
      split
      · rename_i hfr
        have hf2 : c.profile.footerSize = 2 := by rcases hp.footer_cases with h | h <;> omega
        refine ⟨hp, hf.transfer hfa rfl rfl rfl rfl rfl rfl hp, hf2, ?_, ?_, hr, ?_, ?_, h6'⟩
        · show 1 ≤ d.footerRemaining
          omega
        · show d.footerRemaining ≤ 2
          omega
        · show (d.buf ++ [b]).length + d.footerRemaining = _
          simp only [List.length_append, List.length_singleton]
          show _ = c.profile.headerSize + d.payloadLen + 2
          omega
        · show (d.buf ++ [b]).take _ = _
          rw [take_append_of_header hns, h5]
      · rw [completeFrame_dec]
        exact idle_inv hp
    · rename_i hr
      refine ⟨hp, hf.transfer hfa rfl rfl rfl rfl rfl rfl hp, ?_⟩
      show stateInv c.profile c.lookup { d with buf := d.buf ++ [b], payloadRemaining := d.payloadRemaining - 1 }
      simp only [stateInv, hst, List.length_append, List.length_singleton, take_append_of_header hns]
      exact ⟨by omega, by omega, by omega, h4, h5, h6'⟩
  | ftr =>
    simp only [stateInv, hst] at hs
    obtain ⟨h1, h2, h3, h4, h5, h6, h7⟩ := hs
    have hlt : c.profile.headerSize ≤ d.buf.length := by omega
    have hns : c.profile.nStart ≤ d.buf.length := by have := hp.headerSize_eq; omega
    have hfa : ∀ i, i < c.profile.headerSize → byteAt (d.buf ++ [b]) i = byteAt d.buf i := fun i hi => happ i (by omega)
    rw [sdecStep_ftr hst]
    unfold stepFtr
    dsimp only
    split
    · rw [completeFrame_dec]
      exact idle_inv hp
    · rename_i hr
      refine ⟨hp, hf.transfer hfa rfl rfl rfl rfl rfl rfl hp, ?_⟩
      show stateInv c.profile c.lookup { d with buf := d.buf ++ [b], footerRemaining := d.footerRemaining - 1 }
      simp only [stateInv, hst, List.length_append, List.length_singleton, take_append_of_header hns]
      refine ⟨h1, by omega, by omega, h4, by omega, h6, ?_⟩
      rw [payloadLength_congr hp _ hfa, h7]

/-- In HDR with the cursor at LEN1, the length register holds LEN0 alone (R39, R186). -/
theorem SdecInv.lenField_lt_of_len1 {c : Connection} {d : Sdec} (h : SdecInv c d) (hs : d.state = .hdr)
    (ht : c.profile.fields[d.cursor]? = some .len1) : d.lenField.toNat < 256 := by
  have hst := h.state
  simp only [stateInv, hs] at hst
  obtain ⟨hlen, hc, -⟩ := hst
  obtain ⟨t, ht', -, -, -, -, h5, -, -⟩ := field_at_cursor h.profile hc
  obtain ⟨hl, hw, ho⟩ := h5.mp (Option.some.inj (ht'.symm.trans ht))
  have hf := h.fields.lenField
  have z : byteAt d.buf (offLen c.profile + 1) = 0 := byteAt_of_le (by omega)
  rw [if_pos hl, decodeLen, if_pos hw, z] at hf
  have hb := (byteAt d.buf (offLen c.profile)).isLt
  simp at hf
  omega

end Sys2Proof.Machine
end

