-- ==== Sys2Proof/Laws/Agreement.lean ====
section
/-!
SUPPORT. What one byte does to the streaming decoder beside the one-shot decoder: completion answers what the one-shot
decoder answers for the accumulated buffer, and every other byte leaves the frame in progress.
-/

namespace Sys2Proof.Machine

theorem offMsg_eq (p : Profile) : offMsg p = p.headerSize - 1 := by
  unfold Profile.headerSize offMsg offLen
  omega

/-- The start bytes match exactly where the sequence opens with them (R99, R162). -/
theorem startBytesMatch_iff {p : Profile} {s : List Byte} (hp : p.WF) (h : p.nStart ≤ s.length) :
    startBytesMatch p s = true ↔ s.take p.nStart = p.startBytes := by
  unfold startBytesMatch Profile.startBytes
  simp only [Bool.and_eq_true, Bool.or_eq_true, decide_eq_true_eq, beq_iff_eq]
  rcases hp.1 with e | e | e
  · simp [e]
  · match s, h with
    | [], h => simp [e] at h
    | x :: s, _ => simp [e, byteAt]
  · match s, h with
    | [], h => simp [e] at h
    | [x], h => simp [e] at h
    | x :: y :: s, _ => simp [e, byteAt]

/-- Completion over a whole frame answers what the one-shot decoder answers for that frame (R190, R196). -/
theorem completeFrame_res_eq {p : Profile} {l : Lookup} {d : Sdec} (hp : p.WF) (hf : FieldsAgree p d)
    (hs : d.buf.take p.nStart = p.startBytes) (hn : payloadLength p l d.buf = some d.payloadLen)
    (hlen : d.buf.length = totalSize p d.payloadLen) : (completeFrame p d).res = validateResult p d.buf l := by
  have hh := hp.headerSize_eq
  have hlen' := hlen
  unfold totalSize Profile.overhead at hlen'
  have hsb := (startBytesMatch_iff (s := d.buf) hp (by omega)).mpr hs
  have hmsg : validFrame d.msgId d.pkgId = validFrame (byteAt d.buf (offMsg p)) (pkgIdOf p d.buf) := by rw [hf.msgId, hf.pkgId]
  have h1 : ¬ d.buf.length < p.overhead := by unfold Profile.overhead; omega
  have h2 : ¬ startBytesMatch p d.buf = false := by rw [hsb]; decide
  have h3 : ¬ d.buf.length < totalSize p d.payloadLen := by omega
  rw [completeFrame_res, validateResult, validate, if_neg h1, if_neg h2, hn]
  dsimp only
  rw [if_neg h3, ← hlen, hmsg]
  split <;> rfl

/-- What a header byte does (R186, R187). -/
theorem stepHdr_cases {c : Connection} {d : Sdec} (hp : c.profile.WF) (hh : HeaderSoFar c.profile d) (b : Byte) :
    let o := stepHdr c.profile c.lookup d b
    (d.cursor + 1 < c.profile.hdrLen ∧ o.res = none ∧ o.dec.buf = d.buf ++ [b] ∧ o.dec.state = d.state) ∨
    (d.cursor + 1 = c.profile.hdrLen ∧ payloadLength c.profile c.lookup (d.buf ++ [b]) = none ∧ o.res = none ∧
      o.dec = Sdec.idle) ∨
    (d.cursor + 1 = c.profile.hdrLen ∧ ∃ n, payloadLength c.profile c.lookup (d.buf ++ [b]) = some n ∧
      ((0 < n + c.profile.footerSize ∧ o.res = none ∧ o.dec.buf = d.buf ++ [b] ∧ o.dec.payloadLen = n ∧
          (o.dec.state = .pay ∨ o.dec.state = .ftr)) ∨
       (n + c.profile.footerSize = 0 ∧ o.res = validateResult c.profile (d.buf ++ [b]) c.lookup ∧ o.dec = Sdec.idle))) := by
  obtain ⟨hf, hlen, hc, hs, -⟩ := hh
  obtain ⟨t, ht, -⟩ := field_at_cursor hp hc
  have hf' := hf.headerByte hp hlen hc b
  have hw : writeAtCursor c.profile { d with buf := d.buf ++ [b] } b = writeField { d with buf := d.buf ++ [b] } t b :=
    writeAtCursor_eq (d := { d with buf := d.buf ++ [b] }) ht b
  generalize hg : writeAtCursor c.profile { d with buf := d.buf ++ [b] } b = g at hf' hw
  have hbuf : g.buf = d.buf ++ [b] := by rw [hw, writeField_buf]
  have hst : g.state = d.state := by rw [hw, writeField_state]
  have hs' : (d.buf ++ [b]).take c.profile.nStart = c.profile.startBytes := by
    rw [take_append_of_header (by omega), hs]
  have hhs := hp.headerSize_eq
  unfold stepHdr
  dsimp only
  rw [hg]
  by_cases hend : d.cursor + 1 = c.profile.hdrLen
  · right
    rw [if_pos hend]
    have hf'' : FieldsAgree c.profile { g with cursor := d.cursor + 1 } :=
      hf'.transfer (fun _ _ => rfl) rfl rfl rfl rfl rfl rfl hp
    have hpl : payloadLength c.profile c.lookup (d.buf ++ [b]) =
        if c.profile.hasLength then some g.lenField.toNat else lookupLength c.lookup g.msgId := by
      rw [← hbuf]
      exact payloadLength_of_fields hf'' c.lookup
    have key : ∀ n, payloadLength c.profile c.lookup (d.buf ++ [b]) = some n →
        let o := startPayload c.profile { g with cursor := d.cursor + 1 } n
        (0 < n + c.profile.footerSize ∧ o.res = none ∧ o.dec.buf = d.buf ++ [b] ∧ o.dec.payloadLen = n ∧
          (o.dec.state = .pay ∨ o.dec.state = .ftr)) ∨
        (n + c.profile.footerSize = 0 ∧ o.res = validateResult c.profile (d.buf ++ [b]) c.lookup ∧ o.dec = Sdec.idle) := by
      intro n hn
      dsimp only
      unfold startPayload
      dsimp only
      by_cases h0 : 0 < n
      · rw [if_pos h0]
        exact .inl ⟨by omega, rfl, hbuf, rfl, .inl rfl⟩
      · rw [if_neg h0]
        by_cases h1 : 0 < c.profile.footerSize
        · rw [if_pos h1]
          exact .inl ⟨by omega, rfl, hbuf, rfl, .inr rfl⟩
        · rw [if_neg h1]
          refine .inr ⟨by omega, ?_, completeFrame_dec ..⟩
          have hg' : FieldsAgree c.profile { g with
              cursor := d.cursor + 1, payloadLen := n, payloadRemaining := n, footerRemaining := c.profile.footerSize } :=
            hf'.transfer (fun _ _ => rfl) rfl rfl rfl rfl rfl rfl hp
          refine (completeFrame_res_eq (l := c.lookup) hp hg' ?_ ?_ ?_).trans ?_
          · show g.buf.take _ = _
            rw [hbuf, hs']
          · show payloadLength _ _ g.buf = _
            rw [hbuf, hn]
          · show g.buf.length = totalSize c.profile n
            rw [hbuf, List.length_append, hlen, List.length_singleton, totalSize, Profile.overhead]
            omega
          · show validateResult c.profile g.buf c.lookup = _
            rw [hbuf]
    unfold endHeader
    dsimp only
    cases hL : c.profile.hasLength with
    | true =>
      rw [hL, if_pos rfl] at hpl
      rw [if_pos rfl]
      exact .inr ⟨hend, _, hpl, key _ hpl⟩
    | false =>
      rw [hL, if_neg (by decide)] at hpl
      rw [if_neg (by decide)]
      cases hn : lookupLength c.lookup g.msgId with
      | none => exact .inl ⟨hend, by rw [hpl, hn], rfl, rfl⟩
      | some n => exact .inr ⟨hend, n, by rw [hpl, hn], key n (by rw [hpl, hn])⟩
  · rw [if_neg hend]
    exact .inl ⟨by omega, rfl, hbuf, hst⟩

/-- What a payload or footer byte does: it is counted, or it completes the frame (R188, R189, R190). -/
theorem sdecStep_payload_or_footer {c : Connection} {d : Sdec} (h : SdecInv c d) (hs : d.state = .pay ∨ d.state = .ftr)
    (b : Byte) :
    let o := sdecStep c.profile c.lookup d b
    payloadLength c.profile c.lookup (d.buf ++ [b]) = some d.payloadLen ∧
    ((d.buf.length + 1 < totalSize c.profile d.payloadLen ∧ o.res = none ∧ o.dec.buf = d.buf ++ [b] ∧
        o.dec.payloadLen = d.payloadLen ∧ (o.dec.state = .pay ∨ o.dec.state = .ftr)) ∨
     (d.buf.length + 1 = totalSize c.profile d.payloadLen ∧ o.dec = Sdec.idle ∧
        o.res = validateResult c.profile (d.buf ++ [b]) c.lookup)) := by
  obtain ⟨hp, hf, hi⟩ := h
  have hhs := hp.headerSize_eq
  have happ : c.profile.headerSize ≤ d.buf.length → ∀ i, i < c.profile.headerSize → byteAt (d.buf ++ [b]) i = byteAt d.buf i :=
    fun h i hi => byteAt_append_left (by omega)
  unfold totalSize Profile.overhead
  rcases hs with hs | hs
  · rw [sdecStep_pay hs]
    simp only [stateInv, hs] at hi
    obtain ⟨h1, h2, h3, h4, h5, h6⟩ := hi
    have hfa := happ (by omega)
    have hn : payloadLength c.profile c.lookup (d.buf ++ [b]) = some d.payloadLen := by
      rw [payloadLength_congr hp _ hfa, h6]
    refine ⟨hn, ?_⟩
    unfold stepPay
    dsimp only
    by_cases hr : d.payloadRemaining - 1 = 0
    · rw [if_pos hr]
      by_cases h0 : 0 < d.footerRemaining
      · rw [if_pos h0]
        exact .inl ⟨by omega, rfl, rfl, rfl, .inr rfl⟩
      · rw [if_neg h0]
        refine .inr ⟨by omega, completeFrame_dec .., ?_⟩
        refine completeFrame_res_eq (l := c.lookup) hp (hf.transfer hfa rfl rfl rfl rfl rfl rfl hp) ?_ ?_ ?_
        · show (d.buf ++ [b]).take _ = _
          rw [take_append_of_header (by omega), h5]
        · exact hn
        · show (d.buf ++ [b]).length = totalSize c.profile d.payloadLen
          simp only [List.length_append, List.length_singleton, totalSize, Profile.overhead]
          omega
    · rw [if_neg hr]
      exact .inl ⟨by omega, rfl, rfl, rfl, .inl hs⟩
  · rw [sdecStep_ftr hs]
    simp only [stateInv, hs] at hi
    obtain ⟨h1, h2, h3, h4, h5, h6, h7⟩ := hi
    have hfa := happ (by omega)
    have hn : payloadLength c.profile c.lookup (d.buf ++ [b]) = some d.payloadLen := by
      rw [payloadLength_congr hp _ hfa, h7]
    refine ⟨hn, ?_⟩
    unfold stepFtr
    dsimp only
    by_cases hr : d.footerRemaining - 1 = 0
    · rw [if_pos hr]
      refine .inr ⟨by omega, completeFrame_dec .., ?_⟩
      refine completeFrame_res_eq (l := c.lookup) hp (hf.transfer hfa rfl rfl rfl rfl rfl rfl hp) ?_ ?_ ?_
      · show (d.buf ++ [b]).take _ = _
        rw [take_append_of_header (by omega), h6]
      · exact hn
      · show (d.buf ++ [b]).length = totalSize c.profile d.payloadLen
        simp only [List.length_append, List.length_singleton, totalSize, Profile.overhead]
        omega
    · rw [if_neg hr]
      exact .inl ⟨by omega, rfl, rfl, rfl, .inr hs⟩

/-- In HDR the invariant says what the header has consumed (R39). -/
theorem SdecInv.headerSoFar {c : Connection} {d : Sdec} (h : SdecInv c d) (hs : d.state = .hdr) :
    HeaderSoFar c.profile d := by
  obtain ⟨hp, hf, hi⟩ := h
  simp only [stateInv, hs] at hi
  exact ⟨hf, hi.1, hi.2.1, hi.2.2.1, hi.2.2.2.2⟩

/-- The header of a profile without start bytes, before its first byte (R184). -/
theorem headerSoFar_start {c : Connection} (hp : c.profile.WF) (hn : c.profile.nStart = 0) :
    HeaderSoFar c.profile { Sdec.idle with buf := [], cursor := 0, state := .hdr } := by
  exact ⟨(idle_fieldsAgree _).transfer (fun _ _ => rfl) rfl rfl rfl rfl rfl rfl hp, by simp [hn], c.profile.hdrLen_pos, by simp [hn, Profile.startBytes], rfl, rfl, rfl⟩

/-- In LFS1 the instance is idle (R39). -/
theorem SdecInv.idle_of_lfs1 {c : Connection} {d : Sdec} (h : SdecInv c d) (hs : d.state = .lfs1) : d = Sdec.idle := by
  have := h.state
  simpa only [stateInv, hs] using this

/-- Everything one byte can do (R183 to R190): it ends no frame, or it completes one, and then the result is that of the
one-shot decoder for the accumulated buffer and the byte. -/
theorem sdecStep_cases {c : Connection} {d : Sdec} (h : SdecInv c d) (b : Byte) :
    let o := sdecStep c.profile c.lookup d b
    (o.res = none ∧ (o.dec.buf = [] ∨ o.dec.buf = [b] ∨ o.dec.buf = d.buf ++ [b])) ∨
    (∃ n, payloadLength c.profile c.lookup (d.buf ++ [b]) = some n ∧
      o.res = validateResult c.profile (d.buf ++ [b]) c.lookup ∧ (d.buf ++ [b]).length = totalSize c.profile n ∧
      o.dec = Sdec.idle) := by
  have hp := h.profile
  have hh := hp.headerSize_eq
  have HDR : ∀ d', d'.buf = d.buf → HeaderSoFar c.profile d' → let o := stepHdr c.profile c.lookup d' b
      (o.res = none ∧ (o.dec.buf = [] ∨ o.dec.buf = [b] ∨ o.dec.buf = d.buf ++ [b])) ∨
      (∃ n, payloadLength c.profile c.lookup (d.buf ++ [b]) = some n ∧
        o.res = validateResult c.profile (d.buf ++ [b]) c.lookup ∧ (d.buf ++ [b]).length = totalSize c.profile n ∧
        o.dec = Sdec.idle) := by
    intro d' e1 hh'
    rcases stepHdr_cases hp hh' b with ⟨a1, a2, a3, a4⟩ | ⟨a1, a2, a3, a4⟩ | ⟨a1, m, a2, a3⟩
    · left; exact ⟨a2, .inr (.inr (by rw [a3, e1]))⟩
    · left; exact ⟨a3, .inl (by rw [a4]; rfl)⟩
    · rcases a3 with ⟨b1, b2, b3, -, b4⟩ | ⟨b1, b2, b3⟩
      · left; exact ⟨b2, .inr (.inr (by rw [b3, e1]))⟩
      · right; rw [e1] at a2 b2; refine ⟨m, a2, b2, ?_, b3⟩
        have := hh'.length
        rw [← e1, List.length_append, this, List.length_singleton, totalSize, Profile.overhead]; omega
  cases hs : d.state with
  | lfs1 => 
    have hd := h.idle_of_lfs1 hs
    rw [sdecStep_lfs1 hs]
    unfold stepLfs1
    by_cases h0 : c.profile.nStart = 0
    · rw [if_pos h0]
      refine HDR _ (by rw [hd]; rfl) ?_
      rw [hd]; exact headerSoFar_start hp h0
    · rw [if_neg h0]
      left
      split
      · exact ⟨rfl, .inr (.inl rfl)⟩
      · exact ⟨rfl, .inl (by rw [hd]; rfl)⟩
  | lfs2 => 
    rw [sdecStep_lfs2 hs]
    unfold stepLfs2
    left
    split
    · exact ⟨rfl, .inr (.inr rfl)⟩
    · split
      · exact ⟨rfl, .inr (.inl rfl)⟩
      · exact ⟨rfl, .inl rfl⟩
  | hdr => rw [sdecStep_hdr hs]; exact HDR d rfl (h.headerSoFar hs)
  | pay | ftr =>
    have hs' : d.state = .pay ∨ d.state = .ftr := by rw [hs]; simp
    obtain ⟨a1, a2⟩ := sdecStep_payload_or_footer h hs' b
    rcases a2 with ⟨b1, b2, b3, -, b4⟩ | ⟨b1, b2, b3⟩
    · left; exact ⟨b2, .inr (.inr b3)⟩
    · right; exact ⟨_, a1, b3, by rw [List.length_append, List.length_singleton, b1], b2⟩

end Sys2Proof.Machine
end

