-- ==== Sys2Proof/Laws/Checksum.lean ====
section
/-!
SUPPORT. The checksum function over appended bytes, and as the sums of 40_checksum.md R137.
-/

namespace Sys2Proof.Machine

@[simp] theorem fletcher_nil : fletcher [] = ⟨0, 0⟩ := rfl

theorem fletcher_append (xs ys : List Byte) : fletcher (xs ++ ys) = ys.foldl fletcherByte (fletcher xs) := by
  simp [fletcher, List.foldl_append]

/-- One more byte (R137). -/
theorem fletcher_concat (bs : List Byte) (b : Byte) :
    fletcher (bs ++ [b]) = { c0 := (fletcher bs).c0 + b, c1 := (fletcher bs).c1 + ((fletcher bs).c0 + b) } := by
  simp [fletcher_append, fletcherByte]

@[simp] theorem byteSum_nil : byteSum [] = 0 := rfl

@[simp] theorem byteSum_cons (b : Byte) (bs : List Byte) : byteSum (b :: bs) = b.toNat + byteSum bs := by
  simp [byteSum]

@[simp] theorem byteSum_append (xs ys : List Byte) : byteSum (xs ++ ys) = byteSum xs + byteSum ys := by
  simp [byteSum]

/-- The accumulators after a range, from any start. -/
theorem foldl_fletcherByte_toNat (bs : List Byte) (c : Chk) :
    (bs.foldl fletcherByte c).c0.toNat = (c.c0.toNat + byteSum bs) % 256 ∧
    (bs.foldl fletcherByte c).c1.toNat = (c.c1.toNat + bs.length * c.c0.toNat + weightedSum bs) % 256 := by
  induction bs generalizing c with
  | nil =>
    have h0 := c.c0.isLt
    have h1 := c.c1.isLt
    simp only [List.foldl_nil, byteSum_nil, weightedSum, List.length_nil]
    omega
  | cons b bs ih =>
    obtain ⟨i0, i1⟩ := ih (fletcherByte c b)
    refine ⟨?_, ?_⟩
    · rw [List.foldl_cons, i0, byteSum_cons]
      simp only [fletcherByte, BitVec.toNat_add]
      omega
    · rw [List.foldl_cons, i1]
      simp only [fletcherByte, BitVec.toNat_add, weightedSum, List.length_cons]
      have e1 : bs.length * ((c.c0.toNat + b.toNat) % 2 ^ 8) % 256 = bs.length * (c.c0.toNat + b.toNat) % 256 := by
        rw [show (2:Nat) ^ 8 = 256 from rfl, Nat.mul_mod_mod]
      have e2 : bs.length * (c.c0.toNat + b.toNat) = bs.length * c.c0.toNat + bs.length * b.toNat := Nat.mul_add ..
      have e3 : (bs.length + 1) * c.c0.toNat = bs.length * c.c0.toNat + c.c0.toNat := by ring
      have e4 : (bs.length + 1) * b.toNat = bs.length * b.toNat + b.toNat := by ring
      rw [e3, e4]
      omega

/-- The checksum as the sums of R137. -/
theorem isChecksum_fletcher (bs : List Byte) : isChecksum bs (fletcher bs).c0 (fletcher bs).c1 := by
  obtain ⟨h0, h1⟩ := foldl_fletcherByte_toNat bs ⟨0, 0⟩
  exact ⟨by simpa [fletcher] using h0, by simpa [fletcher] using h1⟩

/-- Two footer bytes verify a range exactly where they are its sums (R135, R137). -/
theorem isChecksum_iff (bs : List Byte) (f0 f1 : Byte) : isChecksum bs f0 f1 ↔ footerMatches bs f0 f1 = true := by
  have := isChecksum_fletcher bs
  simp only [isChecksum, footerMatches, Bool.and_eq_true, beq_iff_eq] at *
  rw [← BitVec.toNat_inj, ← BitVec.toNat_inj]
  omega

end Sys2Proof.Machine
end

