-- ==== Sys2Proof/Laws/Decode.lean ====
section
/-!
SUPPORT. The decoder reads back what the encoder writes, operand form by operand form.
-/

namespace Sys2Proof

@[simp] theorem decodeBool_encodeBool (b : Bool) : decodeBool (encodeBool b) = .ok b := by
  cases b <;> decide

theorem decodeBool_ok {b : Byte} {x : Bool} (h : decodeBool b = .ok x) : encodeBool x = b := by
  unfold decodeBool at h
  split at h
  · rename_i h0
    simp only [Except.ok.injEq] at h
    subst h h0
    decide
  · split at h
    · rename_i h1
      simp only [Except.ok.injEq] at h
      subst h h1
      decide
    · cases h

/-- What the checks of a profile bound (R21, R141). -/
theorem profileOk_bounds {p : Profile} (h : profileOk p = true) :
    p.nStart < 256 ∧ p.lengthWidth < 256 ∧ p.footerSize < 256 ∧ 1 ≤ p.storedHeaderSize ∧ p.storedHeaderSize < 257 := by
  simp only [profileOk, Bool.and_eq_true, decide_eq_true_eq] at h
  obtain ⟨⟨h1, h2, h3, h4⟩, h5⟩ := h
  have h5 : p.lengthWidth < 4 := h5
  have hl : 1 ≤ p.hdrLen := by unfold Profile.hdrLen Profile.fields; simp; omega
  have hu : p.hdrLen ≤ 7 := by
    unfold Profile.hdrLen Profile.fields
    cases p.hasSequence <;> cases p.hasSystemId <;> cases p.hasComponentId <;> cases p.hasLength <;> cases p.hasPackageId <;>
      by_cases h : p.lengthWidth = 2 <;> simp [h]
  omega

@[simp] theorem decodeProfile_encodeProfile (p : Profile) (rest : List Byte) (h : profileOk p = true) :
    decodeProfile (encodeProfile p ++ rest) = .ok (p, rest) := by
  obtain ⟨h1, h2, h3, h4, h5⟩ := profileOk_bounds h
  have e1 : p.nStart % 256 = p.nStart := Nat.mod_eq_of_lt h1
  have e2 : p.lengthWidth % 256 = p.lengthWidth := Nat.mod_eq_of_lt h2
  have e3 : p.footerSize % 256 = p.footerSize := Nat.mod_eq_of_lt h3
  have e4 : (p.storedHeaderSize - 1) % 256 + 1 = p.storedHeaderSize := by omega
  simp [decodeProfile, encodeProfile, decodeFlags, e1, e2, e3, e4, h]

theorem decodeProfile_ok {bs rest : List Byte} {p : Profile} (h : decodeProfile bs = .ok (p, rest)) :
    profileOk p = true ∧ bs = encodeProfile p ++ rest := by
  unfold decodeProfile at h
  split at h
  · rename_i n s1 s2 sq sy co ln lw pk ft hs rest'
    split at h
    · cases h
    · rename_i a b c d e hf
      dsimp only at h
      split at h
      · rename_i hok
        simp only [Except.ok.injEq, Prod.mk.injEq] at h
        obtain ⟨rfl, rfl⟩ := h
        refine ⟨hok, ?_⟩
        unfold decodeFlags at hf
        split at hf
        · rename_i ha hb hc hd he
          simp only [Except.ok.injEq, Prod.mk.injEq] at hf
          obtain ⟨rfl, rfl, rfl, rfl, rfl⟩ := hf
          simp [encodeProfile, decodeBool_ok ha, decodeBool_ok hb, decodeBool_ok hc, decodeBool_ok hd, decodeBool_ok he]
        all_goals cases hf
      · cases h
  · cases h

theorem word32_bytes (n : Nat) (h : n < 4294967296) :
    word32 (BitVec.ofNat 8 n) (BitVec.ofNat 8 (n / 256)) (BitVec.ofNat 8 (n / 65536)) (BitVec.ofNat 8 (n / 16777216)) = n := by
  simp only [word32, BitVec.toNat_ofNat]
  omega

theorem decodeEntries_encode (l : Lookup) (rest : List Byte) (h : (l.all fun e => decide (e.2 < 4294967296)) = true) :
    decodeEntries l.length (l.flatMap encodeEntry ++ rest) = .ok (l, rest) := by
  induction l with
  | nil => rfl
  | cons e l ih =>
    simp only [List.all_cons, Bool.and_eq_true, decide_eq_true_eq] at h
    simp only [List.flatMap_cons, encodeEntry, List.length_cons, List.cons_append, List.nil_append, decodeEntries]
    rw [ih h.2]
    simp [word32_bytes e.2 h.1]

@[simp] theorem decodeLookup_encodeLookup (l : Option Lookup) (rest : List Byte) (h : optLookupOk l = true) :
    decodeLookup (encodeLookup l ++ rest) = .ok (l, rest) := by
  cases l with
  | none => rfl
  | some l =>
    have hw : lookupWF l := of_decide_eq_true h
    have hc : l.length % 256 + 256 * (l.length / 256 % 256) = l.length := by have := hw.2.1; omega
    simp only [encodeLookup, List.cons_append, decodeLookup]
    simp [hc, decodeEntries_encode l rest hw.2.2, h]

end Sys2Proof
end

