-- ==== Sys2Proof/Laws/Enc.lean ====
section
/-!
SUPPORT. The sizes of what the encoder builds and when it succeeds.
-/

namespace Sys2Proof.Machine

@[simp] theorem optByte_length (present : Bool) (b : Byte) : (optByte present b).length = present.toNat := by
  cases present <;> rfl

theorem lengthBytes_length (p : Profile) (n : Nat) : (lengthBytes p n).length = if p.lengthWidth = 2 then 2 else 1 := by
  unfold lengthBytes
  split <;> rfl

/-- The header has `header_size(P)` bytes (R142). -/
theorem headerBytes_length {p : Profile} (h : p.WF) (n : Nat) (m sq sy co pk : Byte) :
    (headerBytes p n m sq sy co pk).length = p.headerSize := by
  have hl : (if p.hasLength then lengthBytes p n else []).length = p.lenBytes := by
    rw [h.lenBytes_eq]
    split
    · exact lengthBytes_length p n
    · rfl
  simp only [headerBytes, List.length_append, h.startBytes_length, optByte_length, hl, List.length_singleton,
    Profile.headerSize]

/-- PayloadTooLarge exactly where the length field cannot hold the length (R151). -/
theorem payloadTooLarge_iff (p : Profile) (n : Nat) :
    payloadTooLarge p n = true ↔ p.hasLength = true ∧ (if p.lengthWidth = 1 then 255 else 65535) < n := by
  unfold payloadTooLarge Profile.maxPayload
  cases p.hasLength <;> simp

/-- The two outcomes of the encoder (R150). -/
theorem encodeFrame_ok_iff (p : Profile) (m : Byte) (payload : List Byte) (sq sy co pk : Byte) (f : List Byte) :
    encodeFrame p m payload sq sy co pk = .ok f ↔
      payloadTooLarge p payload.length = false ∧
      f = frameBody p m payload sq sy co pk ++ footerBytes p (frameBody p m payload sq sy co pk) := by
  unfold encodeFrame
  split
  · rename_i h
    simp [h]
  · rename_i h
    simp only [Bool.not_eq_true] at h
    simp [h, eq_comm]

end Sys2Proof.Machine
end

