-- ==== Sys2Proof/Laws/Exec.lean ====
section
/-!
SUPPORT. Which meaning each constructor has: exec, arm by arm.
-/

namespace Sys2Proof.Machine

theorem exec_chkInit (s : State) : exec .chkInit s = execChkInit s := rfl
theorem exec_chkUpdate (b : Byte) (s : State) : exec (.chkUpdate b) s = execChkUpdate b s := rfl
theorem exec_chkCompute (bs : List Byte) (s : State) : exec (.chkCompute bs) s = execChkCompute bs s := rfl
theorem exec_chkVerify (bs : List Byte) (f0 : Byte) (f1 : Byte) (s : State) :
    exec (.chkVerify bs f0 f1) s = execChkVerify bs f0 f1 s := rfl
theorem exec_cfgHeaderSize (p : Profile) (s : State) : exec (.cfgHeaderSize p) s = execCfgHeaderSize p s := rfl
theorem exec_cfgMaxPayload (p : Profile) (s : State) : exec (.cfgMaxPayload p) s = execCfgMaxPayload p s := rfl
theorem exec_cfgOverhead (p : Profile) (s : State) : exec (.cfgOverhead p) s = execCfgOverhead p s := rfl
theorem exec_encEncode (p : Profile) (m : Byte) (pl : List Byte) (sq : Byte) (sy : Byte) (co : Byte) (pk : Byte) (s : State) :
    exec (.encEncode p m pl sq sy co pk) s = execEncEncode p m pl sq sy co pk s := rfl
theorem exec_decValidate (p : Profile) (bs : List Byte) (l : Option Lookup) (s : State) :
    exec (.decValidate p bs l) s = execDecValidate p bs l s := rfl
theorem exec_sdecStep (b : Byte) (s : State) : exec (.sdecStep b) s = execSdecStep b s := rfl
theorem exec_sdecReset (s : State) : exec .sdecReset s = execSdecReset s := rfl
theorem exec_acrPush (bs : List Byte) (s : State) : exec (.acrPush bs) s = execAcrPush bs s := rfl
theorem exec_acrNext (s : State) : exec .acrNext s = execAcrNext s := rfl
theorem exec_acrReset (s : State) : exec .acrReset s = execAcrReset s := rfl
theorem exec_frameStandard (n : Byte) (m : Byte) (bs : List Byte) (s : State) :
    exec (.frameStandard n m bs) s = execFrameStandard n m bs s := rfl
theorem exec_frameSensor (l : Option Lookup) (m : Byte) (bs : List Byte) (s : State) :
    exec (.frameSensor l m bs) s = execFrameSensor l m bs s := rfl
theorem exec_frameIpc (l : Option Lookup) (m : Byte) (bs : List Byte) (s : State) :
    exec (.frameIpc l m bs) s = execFrameIpc l m bs s := rfl
theorem exec_frameBulk (lo : Byte) (hi : Byte) (pk : Byte) (m : Byte) (bs : List Byte) (s : State) :
    exec (.frameBulk lo hi pk m bs) s = execFrameBulk lo hi pk m bs s := rfl
theorem exec_frameNetwork (sq : Byte) (sy : Byte) (co : Byte) (lo : Byte) (hi : Byte) (pk : Byte) (m : Byte) (bs : List Byte) (s : State) :
    exec (.frameNetwork sq sy co lo hi pk m bs) s = execFrameNetwork sq sy co lo hi pk m bs s := rfl
theorem exec_frameGeneric (p : Profile) (l : Option Lookup) (fs : List Byte) (bs : List Byte) (s : State) :
    exec (.frameGeneric p l fs bs) s = execFrameGeneric p l fs bs s := rfl
theorem exec_sdecStepLfs1 (b : Byte) (s : State) : exec (.sdecStepLfs1 b) s = execSdecStepLfs1 b s := rfl
theorem exec_sdecStepLfs2 (b : Byte) (s : State) : exec (.sdecStepLfs2 b) s = execSdecStepLfs2 b s := rfl
theorem exec_sdecStepHdr (b : Byte) (s : State) : exec (.sdecStepHdr b) s = execSdecStepHdr b s := rfl
theorem exec_sdecStepPay (b : Byte) (s : State) : exec (.sdecStepPay b) s = execSdecStepPay b s := rfl
theorem exec_sdecStepFtr (b : Byte) (s : State) : exec (.sdecStepFtr b) s = execSdecStepFtr b s := rfl

/-- SDEC.STEP on a connection that is ready: the next state of the instance and the result of the byte. -/
theorem exec_sdecStep_ready {s : State} (h : s.sdecConn.Ready) (b : Byte) :
    exec (.sdecStep b) s = .next { s with
      sdec := (sdecStep s.sdecConn.profile s.sdecConn.lookup s.sdec b).dec
      result := .parse (sdecStep s.sdecConn.profile s.sdecConn.lookup s.sdec b).res } := by
  rw [exec_sdecStep, execSdecStep, sdecByte_ready h]

end Sys2Proof.Machine
end

