-- ==== Sys2Proof/Laws/Feeding.lean ====
section
/-!
SUPPORT. Bytes fed one after the other: by SDEC.STEP operations, in one sequence cut in two, and by the loop of ACR.NEXT.
-/

namespace Sys2Proof.Machine

/-- A byte that gives a valid result leaves the decoder idle, whatever state it was in (R190). -/
theorem sdecStep_res_some {p : Profile} {l : Lookup} {d : Sdec} {b : Byte} {q : Parsed}
    (h : (sdecStep p l d b).res = some q) :
    (sdecStep p l d b).dec = Sdec.idle := by
  have C : ∀ d, (completeFrame p d).dec = Sdec.idle := completeFrame_dec p
  have H : ∀ d q, (stepHdr p l d b).res = some q → (stepHdr p l d b).dec = Sdec.idle := by
    intro d q h
    unfold stepHdr endHeader startPayload at *
    dsimp only at *
    split at h
    · rename_i h1
      rw [if_pos h1]
      split at h
      · rename_i h2
        rw [if_pos h2]
        split at h
        · cases h
        · split at h
          · cases h
          · rename_i h3 h4; rw [if_neg h3, if_neg h4, C]
      · rename_i h2
        rw [if_neg h2]
        split at h
        · cases h
        · rename_i hn
          split at h
          · cases h
          · split at h
            · cases h
            · rename_i h3 h4; rw [if_neg h3, if_neg h4, C]
    · cases h
  cases hs : d.state with
  | lfs1 =>
    rw [sdecStep_lfs1 hs] at *
    unfold stepLfs1 at *
    split at h
    · rename_i h1; rw [if_pos h1]; exact H _ _ h
    · split at h <;> cases h
  | lfs2 => 
    rw [sdecStep_lfs2 hs] at *
    unfold stepLfs2 at *
    split at h
    · cases h
    · split at h <;> cases h
  | hdr => rw [sdecStep_hdr hs] at *; exact H _ _ h
  | pay =>
    rw [sdecStep_pay hs] at *
    unfold stepPay at *
    dsimp only at *
    split at h
    · split at h
      · cases h
      · rename_i h1 h2; rw [if_pos h1, if_neg h2, C]
    · cases h
  | ftr => 
    rw [sdecStep_ftr hs] at *
    unfold stepFtr at *
    dsimp only at *
    split at h
    · rename_i h1; rw [if_pos h1, C]
    · cases h

/-- Feeding a sequence is feeding its parts one after the other (R215). -/
theorem feed_append (p : Profile) (l : Lookup) (xs ys : List Byte) : ∀ d : Sdec, feed p l d (xs ++ ys) =
    ((feed p l (feed p l d xs).1 ys).1, (feed p l d xs).2 ++ (feed p l (feed p l d xs).1 ys).2) := by
  induction xs with
  | nil => intro d; rfl
  | cons b xs ih => intro d; simp [feed, ih]

/-- A run of SDEC.STEP operations on a connection that is ready is the feeding of its instance (R181). -/
theorem performAll_sdecStep (bs : List Byte) : ∀ s : State, s.sdecConn.Ready → ∃ t : State,
    performAll (bs.map .sdecStep) s = some (t, (feed s.sdecConn.profile s.sdecConn.lookup s.sdec bs).2.map .parse) ∧
    t.sdec = (feed s.sdecConn.profile s.sdecConn.lookup s.sdec bs).1 := by
  induction bs with
  | nil => intro s _; exact ⟨s, rfl, rfl⟩
  | cons b bs ih =>
    intro s h
    obtain ⟨t, h1, h2⟩ := ih { s with
       sdec := (sdecStep s.sdecConn.profile s.sdecConn.lookup s.sdec b).dec
       result := .parse (sdecStep s.sdecConn.profile s.sdecConn.lookup s.sdec b).res} h
    refine ⟨t, ?_, h2⟩
    rw [List.map_cons, performAll, exec_sdecStep_ready h b]
    dsimp only
    rw [h1]
    rfl

/-- Everything the loop of ACR.NEXT can do (R212): no byte gives a valid result and all are fed, or the bytes are fed up to
and including the first that gives one. -/
theorem drainQueue_cases (p : Profile) (l : Lookup) (q : List Byte) : ∀ d : Sdec, let o := drainQueue p l d q
    (o.2.2 = none ∧ o.2.1 = [] ∧ feed p l d q = (o.1, List.replicate q.length none)) ∨
    (∃ fed r, o.2.2 = some r ∧ q = fed ++ o.2.1 ∧ fed ≠ [] ∧ o.1 = Sdec.idle ∧
      feed p l d fed = (o.1, List.replicate (fed.length - 1) none ++ [some r])) := by
  induction q with
  | nil => intro d; left; exact ⟨rfl, rfl, rfl⟩
  | cons b q ih =>
    intro d
    dsimp only
    unfold drainQueue
    dsimp only
    split
    · rename_i r hr
      right
      exact ⟨[b], r, rfl, rfl, by simp, sdecStep_res_some hr, by simp [feed, hr]⟩
    · rename_i hr
      rcases ih (sdecStep p l d b).dec with ⟨h1, h2, h3⟩ | ⟨fed, r, h1, h2, h3, h4, h5⟩
      · left; refine ⟨h1, h2, ?_⟩
        simp only [feed, h3, hr, List.length_cons, List.replicate_succ]
      · right; refine ⟨b :: fed, r, h1, by rw [List.cons_append, ← h2], by simp, h4, ?_⟩
        simp only [feed, h5, hr]
        have : fed.length ≠ 0 := by simpa using h3
        rw [List.length_cons, Nat.add_sub_cancel, ← List.cons_append, ← List.replicate_succ]
        rw [Nat.sub_add_cancel (by omega)]

end Sys2Proof.Machine
end

