-- ==== Sys2Proof/Laws/PerInstr.lean ====
section
/-!
SUPPORT. Statements for all instructions, one lemma per constructor.
-/

namespace Sys2Proof.Laws.RowCode

/-- The row of the opcode table an instruction belongs to: its format (R114: 0 op4, 1 state3, 2 frame) and its code in it
(the select codes of R110, the state codes of R111, the table's order of the frame rows). -/
def row : Instr → Nat × Nat
  | .chkInit => (0, 0)
  | .chkUpdate _ => (0, 1)
  | .chkCompute _ => (0, 2)
  | .chkVerify _ _ _ => (0, 3)
  | .cfgHeaderSize _ => (0, 4)
  | .cfgMaxPayload _ => (0, 5)
  | .cfgOverhead _ => (0, 6)
  | .encEncode _ _ _ _ _ _ _ => (0, 7)
  | .decValidate _ _ _ => (0, 8)
  | .sdecStep _ => (0, 9)
  | .sdecReset => (0, 10)
  | .acrPush _ => (0, 11)
  | .acrNext => (0, 12)
  | .acrReset => (0, 13)
  | .frameStandard _ _ _ => (2, 0)
  | .frameSensor _ _ _ => (2, 1)
  | .frameIpc _ _ _ => (2, 2)
  | .frameBulk _ _ _ _ _ => (2, 3)
  | .frameNetwork _ _ _ _ _ _ _ _ => (2, 4)
  | .frameGeneric _ _ _ _ => (2, 5)
  | .sdecStepLfs1 _ => (1, 0)
  | .sdecStepLfs2 _ => (1, 1)
  | .sdecStepHdr _ => (1, 2)
  | .sdecStepPay _ => (1, 3)
  | .sdecStepFtr _ => (1, 4)

/-- The first byte of an instruction's request carries the row's format in its high half and the row's code in its low half.
-/
def Statement (i : Instr) : Prop :=
  ∃ sel : Byte, (encode i).head? = some sel ∧ sel.toNat / 16 = (row i).1 ∧ sel.toNat % 16 = (row i).2

theorem chkInit : Statement .chkInit := ⟨0x00, rfl, rfl, rfl⟩
theorem chkUpdate (b : Byte) : Statement (.chkUpdate b) := ⟨0x01, rfl, rfl, rfl⟩
theorem chkCompute (bs : List Byte) : Statement (.chkCompute bs) := ⟨0x02, rfl, rfl, rfl⟩
theorem chkVerify (bs : List Byte) (f0 : Byte) (f1 : Byte) : Statement (.chkVerify bs f0 f1) := ⟨0x03, rfl, rfl, rfl⟩
theorem cfgHeaderSize (p : Profile) : Statement (.cfgHeaderSize p) := ⟨0x04, rfl, rfl, rfl⟩
theorem cfgMaxPayload (p : Profile) : Statement (.cfgMaxPayload p) := ⟨0x05, rfl, rfl, rfl⟩
theorem cfgOverhead (p : Profile) : Statement (.cfgOverhead p) := ⟨0x06, rfl, rfl, rfl⟩
theorem encEncode (p : Profile) (m : Byte) (pl : List Byte) (sq : Byte) (sy : Byte) (co : Byte) (pk : Byte) :
    Statement (.encEncode p m pl sq sy co pk) := ⟨0x07, rfl, rfl, rfl⟩
theorem decValidate (p : Profile) (bs : List Byte) (l : Option Lookup) : Statement (.decValidate p bs l) := ⟨0x08, rfl, rfl, rfl⟩
theorem sdecStep (b : Byte) : Statement (.sdecStep b) := ⟨0x09, rfl, rfl, rfl⟩
theorem sdecReset : Statement .sdecReset := ⟨0x0A, rfl, rfl, rfl⟩
theorem acrPush (bs : List Byte) : Statement (.acrPush bs) := ⟨0x0B, rfl, rfl, rfl⟩
theorem acrNext : Statement .acrNext := ⟨0x0C, rfl, rfl, rfl⟩
theorem acrReset : Statement .acrReset := ⟨0x0D, rfl, rfl, rfl⟩
theorem frameStandard (n : Byte) (m : Byte) (bs : List Byte) : Statement (.frameStandard n m bs) := ⟨0x20, rfl, rfl, rfl⟩
theorem frameSensor (l : Option Lookup) (m : Byte) (bs : List Byte) : Statement (.frameSensor l m bs) := ⟨0x21, rfl, rfl, rfl⟩
theorem frameIpc (l : Option Lookup) (m : Byte) (bs : List Byte) : Statement (.frameIpc l m bs) := ⟨0x22, rfl, rfl, rfl⟩
theorem frameBulk (lo : Byte) (hi : Byte) (pk : Byte) (m : Byte) (bs : List Byte) :
    Statement (.frameBulk lo hi pk m bs) := ⟨0x23, rfl, rfl, rfl⟩
theorem frameNetwork (sq : Byte) (sy : Byte) (co : Byte) (lo : Byte) (hi : Byte) (pk : Byte) (m : Byte) (bs : List Byte) :
    Statement (.frameNetwork sq sy co lo hi pk m bs) := ⟨0x24, rfl, rfl, rfl⟩
theorem frameGeneric (p : Profile) (l : Option Lookup) (fs : List Byte) (bs : List Byte) :
    Statement (.frameGeneric p l fs bs) := ⟨0x25, rfl, rfl, rfl⟩
theorem sdecStepLfs1 (b : Byte) : Statement (.sdecStepLfs1 b) := ⟨0x10, rfl, rfl, rfl⟩
theorem sdecStepLfs2 (b : Byte) : Statement (.sdecStepLfs2 b) := ⟨0x11, rfl, rfl, rfl⟩
theorem sdecStepHdr (b : Byte) : Statement (.sdecStepHdr b) := ⟨0x12, rfl, rfl, rfl⟩
theorem sdecStepPay (b : Byte) : Statement (.sdecStepPay b) := ⟨0x13, rfl, rfl, rfl⟩
theorem sdecStepFtr (b : Byte) : Statement (.sdecStepFtr b) := ⟨0x14, rfl, rfl, rfl⟩

end Sys2Proof.Laws.RowCode
end

