-- ==== Sys2Proof/Tests/Slice0.lean ====
section
/-!
SUPPORT. The model's own tests: words written out from the encodings of 30_encoding.md, ill-formed terms, the vectors of
95_test_vectors.md, and for each obligation with hypotheses a witness that meets them.
-/

namespace Sys2Proof.Tests

open Sys2Proof.Machine

/-! ### What a test looks at -/

/-- The result of a next state. -/
def resultOf : Answer → Option Result
  | .next t => some t.result
  | .fault _ => none
  | .refused _ => none

/-- The SDEC instance of a next state. -/
def sdecOf : Answer → Option Sdec
  | .next t => some t.sdec
  | .fault _ => none
  | .refused _ => none

/-- The ACR instance of a next state. -/
def acrOf : Answer → Option Acr
  | .next t => some t.acr
  | .fault _ => none
  | .refused _ => none

/-- The accumulators of a next state. -/
def chkOf : Answer → Option Chk
  | .next t => some t.chk
  | .fault _ => none
  | .refused _ => none

/-- Why an operation was refused. -/
def refusalOf : Answer → Option Refusal
  | .next _ => none
  | .fault _ => none
  | .refused r => some r

/-- A machine with its SDEC instance and connections as given. -/
def machineWith (p : Profile) (l : Lookup) (d : Sdec) : State := { State.powerOn ⟨p, l⟩ ⟨p, l⟩ with sdec := d }

/-- A machine with its reader as given, Standard profile. -/
def readerWith (d : Sdec) (queue : List Byte) : State := { State.reset with acr := ⟨d, queue⟩ }

/-- The profile "custom A" of V-CFG-6. -/
def customA : Profile := ⟨1, 0xA5, 0, true, false, false, true, 1, false, 2, 4⟩

/-- The profile "custom B" of V-CFG-7. -/
def customB : Profile := ⟨1, 0x7E, 0, false, false, false, false, 0, true, 2, 3⟩

/-- The profile of V-SDEC-8: equal start bytes, no footer. -/
def equalStarts : Profile := ⟨2, 0x55, 0x55, false, false, false, true, 1, false, 0, 4⟩

/-- The record of V-CFG-10. -/
def storedWrong : Profile := { Profile.standard with storedHeaderSize := 5 }

/-- `F1` of 95_test_vectors.md section 2.4. -/
def f1 : List Byte := [0x90, 0x71, 0x02, 0x01, 0xAA, 0xBB, 0x68, 0x1A]

/-- `VALID(1, 0, [0xAA, 0xBB])`. -/
def f1Valid : Parsed := ⟨1, 0, [0xAA, 0xBB], 2⟩

/-- SDEC in HDR after `0x90 0x71` (P2, byte 6). -/
def inHdr : Sdec := { Sdec.idle with state := .hdr, buf := [0x90, 0x71] }

/-- SDEC in HDR after `0x90 0x71 0x02` (P2, byte 7). -/
def inHdr1 : Sdec := { inHdr with cursor := 1, buf := [0x90, 0x71, 0x02], lenField := 2 }

/-- SDEC in PAY after `0x90 0x71 0x02 0x01` (P2, byte 8). -/
def inPay : Sdec :=
  { inHdr1 with
    state := .pay, cursor := 2, buf := [0x90, 0x71, 0x02, 0x01], msgId := 1, payloadLen := 2, payloadRemaining := 2
    footerRemaining := 2 }

/-- SDEC in PAY with one byte to come (P2, byte 9). -/
def inPay1 : Sdec := { inPay with buf := [0x90, 0x71, 0x02, 0x01, 0xAA], payloadRemaining := 1 }

/-- SDEC in FTR with two bytes to come (P2, byte 10). -/
def inFtr : Sdec := { inPay with state := .ftr, buf := [0x90, 0x71, 0x02, 0x01, 0xAA, 0xBB], payloadRemaining := 0 }

/-- SDEC in FTR with one byte to come (P2, byte 11). -/
def inFtr1 : Sdec := { inFtr with buf := [0x90, 0x71, 0x02, 0x01, 0xAA, 0xBB, 0x68], footerRemaining := 1 }

/-- SDEC in LFS2 after `0x90` (P2, byte 1). -/
def inLfs2 : Sdec := { Sdec.idle with state := .lfs2, buf := [0x90] }

/-- SDEC in HDR of a Bulk frame, the cursor at LEN1, after a LEN0 of 255. -/
def inBulkLen1 : Sdec := { Sdec.idle with state := .hdr, cursor := 1, buf := [0x90, 0x74, 0xFF], lenField := 0xFF }

/-- SDEC in PAY after a Network header whose length field is `0xFF 0xFF`. -/
def inNetworkLongest : Sdec :=
  { Sdec.idle with
    state := .pay, cursor := 7, buf := [0x90, 0x78, 1, 2, 3, 0xFF, 0xFF, 4, 5], seq := 1, sysId := 2, compId := 3
    lenField := 0xFFFF, pkgId := 4, msgId := 5, payloadLen := 65535, payloadRemaining := 65535, footerRemaining := 2 }

/-- SDEC in PAY after a Sensor header, three bytes to come. -/
def inSensorPay : Sdec :=
  { Sdec.idle with
    state := .pay, cursor := 1, buf := [0x70, 5], msgId := 5, payloadLen := 3, payloadRemaining := 3 }

/-! ### Words written out from the spec's encodings -/

/-- The fourteen select codes of R110, as the four bits of the table: 0000 to 1101. -/
theorem test_decode_chk_codes :
    decode [0b00000000] = .ok .chkInit ∧ decode [0b00000001, 0xBB] = .ok (.chkUpdate 0xBB) ∧
    decode [0b00000010, 1, 2] = .ok (.chkCompute [1, 2]) ∧ decode [0b00000011, 0x68, 0x1A, 2] = .ok (.chkVerify [2] 0x68 0x1A) := by
  decide

theorem test_decode_sdec_and_acr_codes :
    decode [0b00001001, 0x90] = .ok (.sdecStep 0x90) ∧ decode [0b00001010] = .ok .sdecReset ∧
    decode [0b00001011, 7, 8] = .ok (.acrPush [7, 8]) ∧ decode [0b00001100] = .ok .acrNext ∧
    decode [0b00001101] = .ok .acrReset := by
  decide

/-- CFG.HEADER_SIZE, CFG.MAX_PAYLOAD and CFG.OVERHEAD of Standard: the eleven fields of R21, the size 4 held less 1. -/
theorem test_decode_cfg_codes :
    decode [0b00000100, 2, 0x90, 0x71, 0, 0, 0, 1, 1, 0, 2, 3] = .ok (.cfgHeaderSize Profile.standard) ∧
    decode [0b00000101, 2, 0x90, 0x71, 0, 0, 0, 1, 1, 0, 2, 3] = .ok (.cfgMaxPayload Profile.standard) ∧
    decode [0b00000110, 2, 0x90, 0x71, 0, 0, 0, 1, 1, 0, 2, 3] = .ok (.cfgOverhead Profile.standard) := by
  decide

/-- ENC.ENCODE(Standard, 1, [0xAA, 0xBB], 4, 5, 6, 7), and DEC.VALIDATE(IPC, [7, 1], L{7:300}). -/
theorem test_decode_enc_and_dec_codes :
    decode [0b00000111, 2, 0x90, 0x71, 0, 0, 0, 1, 1, 0, 2, 3, 1, 4, 5, 6, 7, 0xAA, 0xBB] =
      .ok (.encEncode Profile.standard 1 [0xAA, 0xBB] 4 5 6 7) ∧
    decode [0b00001000, 0, 0, 0, 0, 0, 0, 0, 0, 0, 0, 0, 1, 1, 0, 7, 0x2C, 0x01, 0, 0, 7, 1] =
      .ok (.decValidate Profile.ipc [7, 1] (some [(7, 300)])) := by
  decide

/-- The five state codes of R111, as the three bits of the table: 000 to 100. -/
theorem test_decode_state_codes :
    decode [0x10 + 0b000, 9] = .ok (.sdecStepLfs1 9) ∧ decode [0x10 + 0b001, 9] = .ok (.sdecStepLfs2 9) ∧
    decode [0x10 + 0b010, 9] = .ok (.sdecStepHdr 9) ∧ decode [0x10 + 0b011, 9] = .ok (.sdecStepPay 9) ∧
    decode [0x10 + 0b100, 9] = .ok (.sdecStepFtr 9) := by
  decide

/-- The wire layouts of R94 to R98, and of custom A (R90). -/
theorem test_decode_frames :
    decode (0x20 :: f1) = .ok (.frameStandard 2 1 [0xAA, 0xBB, 0x68, 0x1A]) ∧
    decode [0x21, 0, 0x70, 0x05, 0x09, 0x08] = .ok (.frameSensor none 5 [9, 8]) ∧
    decode [0x22, 0, 0x07, 0x01, 0x02, 0x03] = .ok (.frameIpc none 7 [1, 2, 3]) ∧
    decode [0x23, 0x90, 0x74, 0x2C, 0x01, 0x05, 0x22, 0x10] = .ok (.frameBulk 0x2C 0x01 5 0x22 [0x10]) ∧
    decode [0x24, 0x90, 0x78, 7, 1, 2, 2, 0, 3, 0x42, 0xDE] = .ok (.frameNetwork 7 1 2 2 0 3 0x42 [0xDE]) ∧
    decode [0x25, 1, 0xA5, 0, 1, 0, 0, 1, 1, 0, 2, 3, 0, 0xA5, 0x44, 0x01, 0x33, 0x01, 0x79, 0x7A] =
      .ok (.frameGeneric customA none [0x44, 0x01, 0x33] [0x01, 0x79, 0x7A]) := by
  decide

/-- Codes and bytes that are no instruction (R110, R111, R114, V-CFG-10). -/
theorem test_decode_refuses :
    decode [] = .error .emptyRequest ∧ decode [0x0E] = .error (.undefinedSelectCode 14) ∧
    decode [0x15, 0] = .error (.undefinedStateCode 5) ∧ decode [0x26] = .error (.undefinedFrameRow 6) ∧
    decode [0x30] = .error (.undefinedFormat 3) ∧ decode [0x20, 0x90, 0x70, 0, 0] = .error .frameDoesNotMatch ∧
    decode [0x04, 2, 0x90, 0x71, 0, 0, 0, 1, 1, 0, 2, 4] = .error .illFormedConfiguration := by
  decide

/-- The table's words: a select code, a state code, and the frame headers with the table's `match` (R114). -/
theorem test_table_words :
    decodeTableWord 4 0xC = some .acrNext ∧ decodeTableWord 3 4 = some (.sdecStepFtr 0) ∧
    decodeTableWord 32 0x90710000 = some (.frameStandard 0 0 []) ∧ decodeTableWord 16 0x7000 = some (.frameSensor none 0 []) ∧
    decodeTableWord 48 0x907400000000 = some (.frameBulk 0 0 0 0 []) ∧
    decodeTableWord 72 0x907800000000000000 = some (.frameNetwork 0 0 0 0 0 0 0 []) := by
  decide

/-! ### Ill-formed terms, one for each check -/

theorem test_wf_accepts :
    profileOk customA = true ∧ profileOk customB = true ∧ optLookupOk (some [(7, 3), (9, 0)]) = true ∧
    (Instr.frameGeneric customA none [1, 2, 3] []).wf = true := by
  decide

theorem test_wf_refuses_three_start_bytes : profileOk { Profile.standard with nStart := 3, storedHeaderSize := 5 } = false := by decide

theorem test_wf_refuses_a_length_of_three_bytes : profileOk { Profile.standard with lengthWidth := 3 } = false := by decide

theorem test_wf_refuses_a_length_width_of_three_bits : profileOk { Profile.sensor with lengthWidth := 4 } = false := by decide

theorem test_wf_refuses_a_footer_of_one_byte : profileOk { Profile.standard with footerSize := 1 } = false := by decide

/-- V-CFG-10. -/
theorem test_wf_refuses_another_header_size : profileOk storedWrong = false := by decide

theorem test_wf_refuses_a_lookup_not_rising : optLookupOk (some [(9, 0), (7, 3)]) = false ∧ optLookupOk (some [(7, 0), (7, 3)]) = false := by
  decide

theorem test_wf_refuses_a_lookup_of_33_bits : optLookupOk (some [(7, 4294967296)]) = false := by decide

theorem test_wf_refuses_too_few_fields : (Instr.frameGeneric customA none [1, 2] []).wf = false := by decide

/-! ### Steps, with the results of 95_test_vectors.md -/

/-- V-CHK-16: the running value is discarded. -/
theorem test_chkInit : chkOf (exec .chkInit { State.reset with chk := ⟨5, 10⟩ }) = some ⟨0, 0⟩ := by decide

/-- V-CHK-13: `c1` adds the new `c0`. -/
theorem test_chkUpdate : chkOf (exec (.chkUpdate 0x01) { State.reset with chk := ⟨0xFF, 0x10⟩ }) = some ⟨0x00, 0x10⟩ := by decide

/-- V-CHK-3, V-CHK-4: modulus 256. -/
theorem test_chkCompute :
    resultOf (exec (.chkCompute [0xFF]) State.reset) = some (.checksum 0xFF 0xFF) ∧
    resultOf (exec (.chkCompute [0xFF, 0xFF]) State.reset) = some (.checksum 0xFE 0xFD) := by
  decide

/-- V-CHK-14, V-CHK-15, and the registers of P1. -/
theorem test_chkVerify :
    resultOf (exec (.chkVerify [2, 1, 0xAA, 0xBB] 0x68 0x1A) State.reset) = some (.verified true) ∧
    resultOf (exec (.chkVerify [2, 1, 0xAA, 0xBB] 0x1A 0x68) State.reset) = some (.verified false) ∧
    chkOf (exec (.chkVerify [2, 1, 0xAA, 0xBB] 0x69 0x1A) State.reset) = some ⟨0x68, 0x1A⟩ := by
  decide

/-- V-CFG-5, V-CFG-6, V-CFG-7. -/
theorem test_cfg :
    resultOf (exec (.cfgHeaderSize Profile.network) State.reset) = some (.size 9) ∧
    resultOf (exec (.cfgOverhead customA) State.reset) = some (.size 6) ∧
    resultOf (exec (.cfgMaxPayload customB) State.reset) = some .unbounded ∧
    resultOf (exec (.cfgMaxPayload customA) State.reset) = some (.size 255) := by
  decide

/-- V-CFG-10. -/
theorem test_cfg_refuses : refusalOf (exec (.cfgHeaderSize storedWrong) State.reset) = some .illFormedConfiguration := by decide

/-- V-ENC-7, V-ENC-11. -/
theorem test_encEncode_bulk_and_network :
    resultOf (exec (.encEncode Profile.bulk 0x22 [0x10, 0x20, 0x30] 0 0 0 5) State.reset) =
      some (.frame [0x90, 0x74, 0x03, 0x00, 0x05, 0x22, 0x10, 0x20, 0x30, 0x8A, 0x56]) ∧
    resultOf (exec (.encEncode Profile.network 0x42 [0xDE, 0xAD] 7 1 2 3) State.reset) =
      some (.frame [0x90, 0x78, 0x07, 0x01, 0x02, 0x02, 0x00, 0x03, 0x42, 0xDE, 0xAD, 0xDC, 0x9C]) := by
  decide

/-- V-ENC-13, V-ENC-16, V-ENC-6. -/
theorem test_encEncode_standard_and_lengthless :
    resultOf (exec (.encEncode Profile.standard 1 [0xAA, 0xBB] 9 9 9 9) State.reset) = some (.frame f1) ∧
    resultOf (exec (.encEncode customB 0x08 [0xC0, 0xDE] 0 0 0 2) State.reset) =
      some (.frame [0x7E, 0x02, 0x08, 0xC0, 0xDE, 0xA8, 0x7E]) ∧
    resultOf (exec (.encEncode Profile.ipc 9 [] 0 0 0 0) State.reset) = some (.frame [0x09]) := by
  decide

/-- V-DEC-1, V-DEC-9, V-DEC-16: the lookup is asked with the msg_id, not the package id. -/
theorem test_decValidate_valid :
    resultOf (exec (.decValidate Profile.standard f1 none) State.reset) = some (.parse (some f1Valid)) ∧
    resultOf (exec (.decValidate Profile.standard [0x90, 0x71, 0, 1, 1, 1, 5, 0x0E] none) State.reset) =
      some (.parse (some ⟨1, 0, [], 0⟩)) ∧
    resultOf (exec (.decValidate customB [0x7E, 2, 8, 0xC0, 0xDE, 0xA8, 0x7E] (some [(8, 2)])) State.reset) =
      some (.parse (some ⟨8, 2, [0xC0, 0xDE], 2⟩)) ∧
    resultOf (exec (.decValidate customB [0x7E, 2, 8, 0xC0, 0xDE, 0xA8, 0x7E] (some [(2, 2)])) State.reset) =
      some (.parse none) := by
  decide

/-- The labels of V-DEC-2, V-DEC-4, V-DEC-5, V-DEC-7, V-DEC-8, V-DEC-11. -/
theorem test_decValidate_labels :
    validate Profile.standard (f1.take 5) [] = .error .bufferTooShort ∧
    validate Profile.standard (f1.take 7) [] = .error .truncated ∧
    validate Profile.standard [0x90, 0x70, 2, 1, 0xAA, 0xBB, 0x68, 0x1A] [] = .error .invalidStartBytes ∧
    validate Profile.standard [0x90, 0x71, 2, 1, 0xAA, 0xBB, 0x68, 0x1B] [] = .error .checksumMismatch ∧
    validate Profile.standard [0x00, 0x71, 5, 1, 0, 0] [] = .error .invalidStartBytes ∧
    validate Profile.ipc [7, 1, 2, 3] [] = .error .unknownMessageLength := by
  decide

/-- V-DEC-1, V-DEC-12 and V-SRC-2, V-DEC-13, V-DEC-14, and the frame of V-ENC-15, as frame rows. -/
theorem test_frame_rows :
    resultOf (exec (.frameStandard 2 1 [0xAA, 0xBB, 0x68, 0x1A]) State.reset) = some (.parse (some f1Valid)) ∧
    resultOf (exec (.frameSensor (some [(5, 2)]) 5 [9, 8]) State.reset) = some (.parse (some ⟨5, 0, [9, 8], 2⟩)) ∧
    resultOf (exec (.frameIpc (some [(7, 3)]) 7 [1, 2, 3]) State.reset) = some (.parse (some ⟨7, 0, [1, 2, 3], 3⟩)) ∧
    resultOf (exec (.frameBulk 3 0 5 0x22 [0x10, 0x20, 0x30, 0x8A, 0x56]) State.reset) =
      some (.parse (some ⟨34, 5, [0x10, 0x20, 0x30], 3⟩)) := by
  decide

theorem test_frame_rows_network_and_generic :
    resultOf (exec (.frameNetwork 7 1 2 2 0 3 0x42 [0xDE, 0xAD, 0xDC, 0x9C]) State.reset) =
      some (.parse (some ⟨66, 3, [0xDE, 0xAD], 2⟩)) ∧
    resultOf (exec (.frameNetwork 6 1 2 2 0 3 0x42 [0xDE, 0xAD, 0xDC, 0x9C]) State.reset) = some (.parse none) ∧
    resultOf (exec (.frameGeneric customA none [0x44, 1, 0x33] [1, 0x79, 0x7A]) State.reset) =
      some (.parse (some ⟨0x33, 0, [1], 1⟩)) := by
  decide

/-- P2, bytes 0 and 1. -/
theorem test_sdecStep_lfs1 :
    sdecOf (exec (.sdecStep 0x00) State.reset) = some Sdec.idle ∧ sdecOf (exec (.sdecStepLfs1 0x90) State.reset) = some inLfs2 := by
  decide

/-- P2, bytes 2, 4 and 6, and V-SDEC-8, byte 1: `start2` is tested first. -/
theorem test_sdecStep_lfs2 :
    sdecOf (exec (.sdecStepLfs2 0x55) (machineWith Profile.standard [] inLfs2)) = some Sdec.idle ∧
    sdecOf (exec (.sdecStepLfs2 0x90) (machineWith Profile.standard [] inLfs2)) = some inLfs2 ∧
    sdecOf (exec (.sdecStepLfs2 0x71) (machineWith Profile.standard [] inLfs2)) = some inHdr ∧
    (sdecOf (exec (.sdecStepLfs2 0x55) (machineWith equalStarts [] { inLfs2 with buf := [0x55] }))).map Sdec.state = some .hdr := by
  decide

/-- P2, bytes 7 and 8. -/
theorem test_sdecStep_hdr :
    sdecOf (exec (.sdecStepHdr 0x02) (machineWith Profile.standard [] inHdr)) = some inHdr1 ∧
    sdecOf (exec (.sdecStepHdr 0x01) (machineWith Profile.standard [] inHdr1)) = some inPay := by
  decide

/-- P3, bytes 0, 1 and 5: a profile without start bytes. -/
theorem test_sdecStep_ipc :
    sdecOf (exec (.sdecStep 5) (machineWith Profile.ipc [(7, 3), (9, 0)] Sdec.idle)) = some Sdec.idle ∧
    sdecOf (exec (.sdecStep 7) (machineWith Profile.ipc [(7, 3), (9, 0)] Sdec.idle)) =
      some { Sdec.idle with state := .pay, cursor := 1, payloadRemaining := 3, buf := [7], msgId := 7, payloadLen := 3 } ∧
    resultOf (exec (.sdecStep 9) (machineWith Profile.ipc [(7, 3), (9, 0)] Sdec.idle)) = some (.parse (some ⟨9, 0, [], 0⟩)) := by
  decide

/-- P2, bytes 9 and 10. -/
theorem test_sdecStep_pay :
    sdecOf (exec (.sdecStepPay 0xAA) (machineWith Profile.standard [] inPay)) = some inPay1 ∧
    sdecOf (exec (.sdecStepPay 0xBB) (machineWith Profile.standard [] inPay1)) = some inFtr := by
  decide

/-- P2, bytes 11 and 12, and R190's byte `0x1B`. -/
theorem test_sdecStep_ftr :
    sdecOf (exec (.sdecStepFtr 0x68) (machineWith Profile.standard [] inFtr)) = some inFtr1 ∧
    resultOf (exec (.sdecStepFtr 0x1A) (machineWith Profile.standard [] inFtr1)) = some (.parse (some f1Valid)) ∧
    resultOf (exec (.sdecStepFtr 0x1B) (machineWith Profile.standard [] inFtr1)) = some (.parse none) ∧
    sdecOf (exec (.sdecStepFtr 0x1B) (machineWith Profile.standard [] inFtr1)) = some Sdec.idle := by
  decide

/-- V-SDEC-6. -/
theorem test_sdecReset : sdecOf (exec .sdecReset (machineWith Profile.standard [] inPay1)) = some Sdec.idle := by decide

/-- R181, R183: offered by way of another row, the byte goes where the state register sends it: in LFS1 `0x90` opens a frame. -/
theorem test_state_row_not_selected : sdecOf (exec (.sdecStepPay 0x90) State.reset) = some inLfs2 := by decide

/-- R211: with `queue = [0x90]`, ACR.PUSH([0x71, 0x02]). -/
theorem test_acrPush : acrOf (exec (.acrPush [0x71, 0x02]) (readerWith Sdec.idle [0x90])) = some ⟨Sdec.idle, [0x90, 0x71, 0x02]⟩ := by
  decide

/-- V-ACR-3. -/
theorem test_acrNext :
    resultOf (exec .acrNext (readerWith Sdec.idle (f1 ++ [0x90]))) = some (.parse (some f1Valid)) ∧
    acrOf (exec .acrNext (readerWith Sdec.idle (f1 ++ [0x90]))) = some ⟨Sdec.idle, [0x90]⟩ ∧
    resultOf (exec .acrNext (readerWith Sdec.idle [0x90])) = some .empty ∧
    acrOf (exec .acrNext (readerWith Sdec.idle [0x90])) = some ⟨inLfs2, []⟩ := by
  decide

/-- V-ACR-8: a rejected frame produces nothing. -/
theorem test_acrNext_swallows :
    resultOf (exec .acrNext (readerWith Sdec.idle [0x90, 0x71, 2, 1, 0xAB, 0xBB, 0x68, 0x1A])) = some .empty := by
  decide

/-- V-ACR-6, V-ACR-7. -/
theorem test_acrReset : acrOf (exec .acrReset (readerWith inPay1 f1)) = some ⟨Sdec.idle, []⟩ := by decide

/-- One request is performed in a step, and the request behind it stays. -/
theorem test_step :
    resultOf (step (issueRequest (issueRequest State.reset [0x02, 0xFF]) [0x0E])) = some (.checksum 0xFF 0xFF) ∧
    refusalOf (step (issueRequest State.reset [0x0E])) = some (.badRequest (.undefinedSelectCode 14)) := by
  decide

/-- A word of the table placed at reset is what the next step runs. -/
theorem test_withFetchWord :
    resultOf (step (State.reset.withFetchWord 4 0xC)) = some .empty ∧
    resultOf (step (State.reset.withFetchWord 3 2)) = some (.parse none) ∧
    resultOf (step (State.reset.withFetchWord 32 0x90710000)) = some (.parse none) := by
  decide

/-! ### Witnesses: for each obligation with hypotheses, operands and a state that meet them together -/

theorem ready_standard : Connection.Ready ⟨Profile.standard, []⟩ := by decide
theorem ready_ipc : Connection.Ready ⟨Profile.ipc, [(7, 3), (9, 0)]⟩ := by decide
theorem ready_customB : Connection.Ready ⟨customB, [(8, 2)]⟩ := by decide

/-- StepPerformsTheOldestRequest. -/
theorem witness_step_performs :
    (issueRequest State.reset [0x09, 0x90]).requests = [0x09, 0x90] :: [] ∧ decode [0x09, 0x90] = .ok (.sdecStep 0x90) := by
  decide

/-- StepWithNothingIssuedChangesNothing. -/
theorem witness_step_idle : State.reset.requests = [] := by decide

/-- UndefinedSelectCodesAreRefused, both codes. -/
theorem witness_undefined_codes :
    (issueRequest State.reset [0x0E, 1]).requests = (0x0E :: [1]) :: [] ∧ (issueRequest State.reset [0x0F]).requests = (0x0F :: []) :: [] := by
  decide

/-- DecodeOfEncodeIsTheInstruction: a profile of its own, a lookup at the largest answer, and the wire fields. -/
theorem witness_encode :
    (Instr.frameGeneric customA (some [(0, 0), (255, 4294967295)]) [1, 2, 3] []).wf = true ∧
    (Instr.encEncode Profile.network 0 [] 0 0 0 0).wf = true ∧ Instr.chkInit.wf = true := by
  decide

/-- EncodeOfDecodeIsTheRequest. -/
theorem witness_decode : decode (0x22 :: 1 :: 1 :: 0 :: 7 :: 3 :: 0 :: 0 :: 0 :: 7 :: []) = .ok (.frameIpc (some [(7, 3)]) 7 []) := by
  decide

/-- VerifyDetectsAChangedByte (V-CHK-14). -/
theorem witness_verify : (0xAA : Byte) ≠ 0xAB ∧ ∃ t,
    exec (.chkVerify ([0x02, 0x01] ++ 0xAA :: [0xBB]) 0x68 0x1A) State.reset = .next t ∧ t.result = .verified true :=
  ⟨by decide, _, rfl, by decide⟩

/-- CfgHeaderSizeCountsTheHeader, CfgOverheadAddsTheFooter: the smallest and the largest shape. -/
theorem witness_cfg_sizes :
    Profile.ipc.WF ∧ Profile.ipc.headerSize = 1 ∧ Profile.ipc.overhead = 1 ∧ Profile.network.WF ∧ Profile.network.headerSize = 9 ∧
    Profile.network.overhead = 11 := by
  decide

/-- CfgMaxPayloadFollowsTheLengthField, each clause. -/
theorem witness_cfg_maxPayload :
    (Profile.standard.WF ∧ Profile.standard.hasLength = true ∧ Profile.standard.lengthWidth = 1) ∧
    (Profile.bulk.WF ∧ Profile.bulk.hasLength = true ∧ Profile.bulk.lengthWidth = 2) ∧
    (Profile.sensor.WF ∧ Profile.sensor.hasLength = false) := by
  decide

/-- IllFormedConfigurationIsRefused (V-CFG-10), with the connections on it. -/
theorem witness_illFormed :
    ¬ storedWrong.WF ∧ (machineWith storedWrong [] Sdec.idle).sdecConn.profile = storedWrong ∧
    (machineWith storedWrong [] Sdec.idle).acrConn.profile = storedWrong := by
  decide

/-- EncodeLaysOutTheFrame and EncodeFailsExactlyOnAPayloadTooLarge, second clause: 255 bytes (V-ENC-2). -/
theorem witness_encode_largest : Profile.standard.WF ∧ Profile.standard.hasLength = true ∧
    (List.replicate 255 (0 : Byte)).length ≤ if Profile.standard.lengthWidth = 1 then 255 else 65535 :=
  ⟨by decide, rfl, Nat.le_of_eq (List.length_replicate ..)⟩

/-- The same for two bytes of length, 65535 (V-ENC-9), where every header field is present. -/
theorem witness_encode_largest_network : Profile.network.WF ∧ Profile.network.hasLength = true ∧
    (List.replicate 65535 (0 : Byte)).length ≤ if Profile.network.lengthWidth = 1 then 255 else 65535 :=
  ⟨by decide, rfl, Nat.le_of_eq (List.length_replicate ..)⟩

/-- The same for a lengthless profile with a footer, as long a payload as the buffers hold. -/
theorem witness_encode_lengthless : customB.WF ∧ customB.hasLength = false ∧ customB.footerSize = 2 ∧
    (List.replicate Config.payloadCap (0 : Byte)).length ≤ Config.payloadCap :=
  ⟨by decide, rfl, rfl, Nat.le_of_eq (List.length_replicate ..)⟩

/-- EncodeFailsExactlyOnAPayloadTooLarge, first clause: 256 bytes (V-ENC-4). -/
theorem witness_encode_too_large : Profile.standard.WF ∧ Profile.standard.hasLength = true ∧
    (if Profile.standard.lengthWidth = 1 then 255 else 65535) < (List.replicate 256 (0 : Byte)).length :=
  ⟨by decide, rfl, by rw [List.length_replicate]; decide⟩

/-- EncodeFailsExactlyOnAPayloadTooLarge, last clause: one byte more than the buffers hold. -/
theorem witness_encode_beyond_cap : Profile.sensor.WF ∧ Profile.sensor.hasLength = false ∧
    Config.payloadCap < (List.replicate (Config.payloadCap + 1) (0 : Byte)).length :=
  ⟨by decide, rfl, by rw [List.length_replicate]; exact Nat.lt_succ_self _⟩

/-- LookupBeyondPayloadCapIsRefused, each clause. -/
theorem witness_lookup_beyond_cap : Profile.sensor.WF ∧ Profile.sensor.hasLength = false ∧
    (∃ e ∈ ([(5, Config.payloadCap + 1)] : Lookup), Config.payloadCap < e.2) ∧
    (machineWith Profile.sensor [(5, Config.payloadCap + 1)] Sdec.idle).sdecConn = ⟨Profile.sensor, [(5, Config.payloadCap + 1)]⟩ ∧
    (machineWith Profile.sensor [(5, Config.payloadCap + 1)] Sdec.idle).acrConn = ⟨Profile.sensor, [(5, Config.payloadCap + 1)]⟩ :=
  ⟨by decide, rfl, ⟨_, List.mem_singleton_self _, Nat.lt_succ_self _⟩, rfl, rfl⟩

/-- EncodeIgnoresOperandsOfAbsentFields: Standard lacks all four fields (V-ENC-13); custom A keeps its sequence. -/
theorem witness_encode_ignores :
    ((Profile.standard.hasSequence = true → (9 : Byte) = 0) ∧ (Profile.standard.hasSystemId = true → (9 : Byte) = 0) ∧
      (Profile.standard.hasComponentId = true → (9 : Byte) = 0) ∧ (Profile.standard.hasPackageId = true → (9 : Byte) = 0)) ∧
    ((customA.hasSequence = true → (4 : Byte) = 4) ∧ (customA.hasPackageId = true → (9 : Byte) = 0)) := by
  decide

/-- ValidateRecoversWhatEncodeBuilt and StrictPrefixesAreInvalid, with a length field (V-SRC-1). -/
theorem witness_round_trip : ∃ t, exec (.encEncode Profile.standard 1 [0xAA, 0xBB] 0 0 0 0) State.reset = .next t ∧
    t.result = .frame f1 ∧ 7 < f1.length ∧ (Profile.standard.hasLength = false → lookupFits (none.getD []) = true ∧
      lookupLength (none.getD []) 1 = some ([0xAA, 0xBB] : List Byte).length) :=
  ⟨_, rfl, by decide, by decide, by decide⟩

/-- The same for a lengthless profile (V-SRC-2). -/
theorem witness_round_trip_lengthless : ∃ t, exec (.encEncode Profile.ipc 7 [1, 2, 3] 0 0 0 0) State.reset = .next t ∧
    t.result = .frame [7, 1, 2, 3] ∧ 3 < ([7, 1, 2, 3] : List Byte).length ∧ (Profile.ipc.hasLength = false →
      lookupFits ((some [(7, 3)]).getD []) = true ∧ lookupLength ((some [(7, 3)]).getD []) 7 = some ([1, 2, 3] : List Byte).length) :=
  ⟨_, rfl, by decide, by decide, by decide⟩

/-- ValidateAcceptsExactlyTheValidFrames, GenericFrameIsRecognised: with and without a length field. -/
theorem witness_validate_ready :
    Connection.Ready ⟨Profile.standard, none.getD []⟩ ∧ Connection.Ready ⟨customB, (some [(8, 2)]).getD []⟩ ∧
    Connection.Ready ⟨Profile.ipc, none.getD []⟩ := by
  decide

/-- GenericFrameIsRecognised, its inner clause (V-ENC-15). -/
theorem witness_generic : ∃ v, exec (.encEncode customA 0x33 [0x01] 0x44 0 0 0) State.reset = .next v ∧
    v.result = .frame [0xA5, 0x44, 0x01, 0x33, 0x01, 0x79, 0x7A] ∧
    [0x44, 0x01, 0x33] = slice [0xA5, 0x44, 0x01, 0x33, 0x01, 0x79, 0x7A] customA.nStart customA.headerSize ∧
    [0x01, 0x79, 0x7A] = ([0xA5, 0x44, 0x01, 0x33, 0x01, 0x79, 0x7A] : List Byte).drop customA.headerSize :=
  ⟨_, rfl, by decide, by decide, by decide⟩

/-- TrailingBytesAreIgnored (V-DEC-3), and StreamingDecoderAcceptsWhatValidateAccepts from idle (P2). -/
theorem witness_valid : ∃ t, exec (.decValidate Profile.standard f1 (some [])) State.reset = .next t ∧
    t.result = .parse (some f1Valid) ∧ State.reset.sdecConn.Ready ∧ State.reset.sdec = Sdec.idle ∧
    f1.length = State.reset.sdecConn.profile.overhead + f1Valid.payload.length :=
  ⟨_, rfl, by decide, by decide, by decide, by decide⟩

/-- StreamingDecoderAcceptsWhatValidateAccepts from LFS2 (P2, byte 5). -/
theorem witness_valid_lfs2 : ∃ t,
    exec (.decValidate Profile.standard f1 (some [])) (machineWith Profile.standard [] inLfs2) = .next t ∧
    t.result = .parse (some f1Valid) ∧ (machineWith Profile.standard [] inLfs2).sdecConn.Ready ∧
    inLfs2 = { Sdec.idle with state := .lfs2, buf := [Profile.standard.start1] } ∧
    Profile.standard.nStart = 2 ∧ Profile.standard.start1 ≠ Profile.standard.start2 :=
  ⟨_, rfl, by decide, by decide, by decide, by decide, by decide⟩

/-- ValidateAcceptsWhatTheStreamingDecoderAccepts (P2, one garbage byte in front). -/
theorem witness_streamed : State.reset.sdec = Sdec.idle ∧ ∃ t,
    performAll ((0x00 :: f1).map .sdecStep) State.reset = some (t, List.replicate 8 (.parse none) ++ [.parse (some f1Valid)]) :=
  ⟨by decide, _, rfl⟩

/-- AChangedByteOutsideTheLengthIsDetected: a start byte, the msg_id, a payload byte, the last footer byte (V-DEC-4,
V-DEC-17). -/
theorem witness_changed_byte : ∃ t, exec (.decValidate Profile.standard f1 none) State.reset = .next t ∧
    t.result = .parse (some f1Valid) ∧ Profile.standard.footerSize = 2 ∧
    f1.length = Profile.standard.headerSize + f1Valid.payload.length + 2 ∧
    ∀ k ∈ [0, 1, 3, 4, 5, 6, 7], k < f1.length ∧ f1[k]? ≠ some 0x55 ∧
      (k < offLen Profile.standard ∨ offLen Profile.standard + Profile.standard.lengthWidth ≤ k) :=
  ⟨_, rfl, by decide, by decide, by decide, by decide⟩

/-- AChangedByteOutsideTheLengthIsDetected for a lengthless profile with a footer (V-DEC-16). -/
theorem witness_changed_byte_lengthless : ∃ t,
    exec (.decValidate customB [0x7E, 2, 8, 0xC0, 0xDE, 0xA8, 0x7E] (some [(8, 2)])) State.reset = .next t ∧
    t.result = .parse (some ⟨8, 2, [0xC0, 0xDE], 2⟩) ∧ customB.footerSize = 2 ∧
    ([0x7E, 2, 8, 0xC0, 0xDE, 0xA8, 0x7E] : List Byte).length = customB.headerSize + 2 + 2 ∧ 1 ≠ customB.headerSize - 1 ∧
    ([0x7E, 2, 8, 0xC0, 0xDE, 0xA8, 0x7E] : List Byte)[1]? ≠ some 0x55 :=
  ⟨_, rfl, by decide, by decide, by decide, by decide, by decide⟩

/-- StandardFrameIsRecognised, BulkFrameIsRecognised, NetworkFrameIsRecognised: the largest and the smallest body. -/
theorem witness_frame_bodies :
    ([] : List Byte).length < (0 : Byte).toNat + 2 ∧ ([0xAA, 0xBB, 0x68, 0x1A] : List Byte) = [0xAA, 0xBB] ++ 0x68 :: 0x1A :: [] ∧
    ([0xAA, 0xBB] : List Byte).length = (2 : Byte).toNat ∧ (2 : Byte).toNat = (2 : Byte).toNat + 256 * (0 : Byte).toNat := by
  decide

/-- LengthlessFramesAreRecognised, both clauses. -/
theorem witness_lengthless :
    lookupFits ((some [(7, 3)]).getD []) = true ∧ lookupLength ((some [(7, 3)]).getD []) 7 = some 3 ∧
    lookupLength ((some [(7, 3)]).getD []) 8 = none := by
  decide

/-- Lfs1LooksForTheFirstStartByte, both clauses, with one and with two start bytes. -/
theorem witness_lfs1 :
    State.reset.sdecConn.Ready ∧ State.reset.sdec.state = .lfs1 ∧ 1 ≤ State.reset.sdecConn.profile.nStart ∧
    (0x90 : Byte) = State.reset.sdecConn.profile.start1 ∧ (0x00 : Byte) ≠ State.reset.sdecConn.profile.start1 ∧
    (machineWith customA [] Sdec.idle).sdecConn.Ready ∧ 1 ≤ customA.nStart := by
  decide

/-- Lfs1WithoutStartBytesParsesTheHeader. -/
theorem witness_lfs1_without :
    (machineWith Profile.ipc [(7, 3)] Sdec.idle).sdecConn.Ready ∧ Sdec.idle.state = .lfs1 ∧ Profile.ipc.nStart = 0 := by
  decide

/-- Lfs2LooksForTheSecondStartByte. -/
theorem witness_lfs2 : (machineWith Profile.standard [] inLfs2).sdecConn.Ready ∧ inLfs2.state = .lfs2 := by decide

/-- HeaderByteGoesToItsField: each tag of the Network header but the last. -/
theorem witness_hdr :
    (machineWith Profile.network [] inHdr).sdecConn.Ready ∧ inHdr.state = .hdr ∧
    ∀ e ∈ [(0, Tag.seq), (1, .sys), (2, .comp), (3, .len0), (4, .len1), (5, .pkg)],
      e.1 + 1 < Profile.network.hdrLen ∧ Profile.network.fields[e.1]? = some e.2 := by
  decide

/-- EndOfHeaderChoosesTheNextState: a length of 2, a length of 0, an unknown msg_id, an empty frame without a footer. -/
theorem witness_end_of_header :
    (machineWith Profile.standard [] inHdr1).sdecConn.Ready ∧ inHdr1.state = .hdr ∧ inHdr1.cursor + 1 = Profile.standard.hdrLen ∧
    2 = inHdr1.lenField.toNat ∧ 0 = { inHdr1 with lenField := 0 }.lenField.toNat ∧
    (machineWith Profile.sensor [(5, 0)] { inHdr with buf := [0x70] }).sdecConn.Ready ∧
    { inHdr with buf := [0x70] }.cursor + 1 = Profile.sensor.hdrLen ∧ Profile.sensor.hasLength = false ∧
    lookupLength [(5, 0)] 6 = none ∧ lookupLength [(5, 0)] 5 = some 0 ∧ Profile.sensor.footerSize = 0 := by
  decide

/-- PayloadByteIsCounted: more than one byte to come, the last one before a footer, and the last one without a footer. -/
theorem witness_pay :
    (machineWith Profile.standard [] inPay).sdecConn.Ready ∧ inPay.state = .pay ∧ 1 ≤ inPay.payloadRemaining ∧
    inPay.footerRemaining = Profile.standard.footerSize ∧ inPay1.payloadRemaining = 1 ∧ inPay1.footerRemaining = 2 ∧
    (machineWith Profile.ipc [(7, 1)] Sdec.idle).sdecConn.Ready ∧ Profile.ipc.footerSize = 0 := by
  decide

/-- FooterDecidesTheFrame: the first and the second footer byte, matching or not. -/
theorem witness_ftr :
    (machineWith Profile.standard [] inFtr).sdecConn.Ready ∧ inFtr.state = .ftr ∧ Profile.standard.footerSize = 2 ∧
    inFtr.footerRemaining = 2 ∧ inFtr1.footerRemaining = 1 ∧ inFtr1.buf = [0x90, 0x71, 0x02, 0x01, 0xAA, 0xBB] ++ [0x68] ∧
    isChecksum ([0x90, 0x71, 0x02, 0x01, 0xAA, 0xBB].drop Profile.standard.nStart) 0x68 0x1A ∧
    ¬ isChecksum ([0x90, 0x71, 0x02, 0x01, 0xAA, 0xBB].drop Profile.standard.nStart) 0x68 0x1B := by
  decide

/-- PowerOnMeetsTheInvariant: well-formed profiles with and without a length field. -/
theorem witness_power_on : Profile.standard.WF ∧ Profile.ipc.WF := by decide

/-- The invariant in PAY, with one byte to come. -/
theorem pay1_inv : (machineWith Profile.standard [] inPay1).Inv where
  sdec := ⟨by decide, ⟨by decide, by decide, by decide, by decide, by decide, by decide⟩, by
    show _ ∧ _ ∧ _ ∧ _ ∧ _ ∧ _
    decide⟩
  acr := idle_inv (by decide)

/-- The invariant in FTR, with two bytes to come. -/
theorem ftr_inv : (machineWith Profile.standard [] inFtr).Inv where
  sdec := ⟨by decide, ⟨by decide, by decide, by decide, by decide, by decide, by decide⟩, by
    show _ ∧ _ ∧ _ ∧ _ ∧ _ ∧ _ ∧ _
    decide⟩
  acr := idle_inv (by decide)

/-- The invariant at LEN1 of a Bulk header. -/
theorem bulk_len1_inv : (machineWith Profile.bulk [] inBulkLen1).Inv where
  sdec := ⟨by decide, ⟨by decide, by decide, by decide, by decide, by decide, by decide⟩, by
    show _ ∧ _ ∧ _ ∧ _ ∧ _ ∧ _ ∧ _
    decide⟩
  acr := idle_inv (by decide)

/-- HeaderByteGoesToItsField, the clause of LEN1, where LEN0 was 255. -/
theorem witness_len1 :
    (machineWith Profile.bulk [] inBulkLen1).Inv ∧ (machineWith Profile.bulk [] inBulkLen1).sdecConn.Ready ∧
    inBulkLen1.state = .hdr ∧ inBulkLen1.cursor + 1 < Profile.bulk.hdrLen ∧
    Profile.bulk.fields[inBulkLen1.cursor]? = some .len1 :=
  ⟨bulk_len1_inv, by decide, by decide, by decide, by decide⟩

/-- The invariant for the longest frame R73 allows in progress: a Network header that announces 65535 payload bytes. -/
theorem network_longest_inv : SdecInv ⟨Profile.network, []⟩ inNetworkLongest :=
  ⟨by decide, ⟨by decide, by decide, by decide, by decide, by decide, by decide⟩, by
    show _ ∧ _ ∧ _ ∧ _ ∧ _ ∧ _
    decide⟩

/-- The invariant for a Sensor frame in progress, its length from the lookup. -/
theorem sensor_pay_inv : SdecInv ⟨Profile.sensor, [(5, 3)]⟩ inSensorPay :=
  ⟨by decide, ⟨by decide, by decide, by decide, by decide, by decide, by decide⟩, by
    show _ ∧ _ ∧ _ ∧ _ ∧ _ ∧ _
    decide⟩

/-- BufferHoldsAtMostOneFrame: with a length field, the bound itself (9 + 65535 + 2) in SDEC; and a lengthless frame in ACR. -/
theorem witness_buffer :
    let s : State := { State.powerOn ⟨Profile.network, []⟩ ⟨Profile.sensor, [(5, 3)]⟩ with
      sdec := inNetworkLongest, acr := ⟨inSensorPay, []⟩ }
    s.Inv ∧ (∀ e ∈ s.decoders, e.1.Ready) ∧
    Profile.network.headerSize + inNetworkLongest.payloadLen + Profile.network.footerSize = 9 + 65535 + 2 :=
  ⟨⟨network_longest_inv, sensor_pay_inv⟩, by
    intro e he
    rcases List.mem_pair.mp he with rfl | rfl <;> decide, by decide⟩

/-- EveryStepKeepsTheInvariant and ConfigurationIsConstant: a frame in progress, and a step. -/
theorem witness_step_keeps : (machineWith Profile.standard [] inPay1).Inv ∧
    (machineWith Profile.standard [] inPay1).sdecConn.Ready ∧ ∃ t, step (machineWith Profile.standard [] inPay1) = .next t :=
  ⟨pay1_inv, by decide, _, rfl⟩

/-- EveryStepKeepsTheInvariant with a request that runs. -/
theorem witness_step_keeps_request : ∃ t,
    (placeRequest (machineWith Profile.standard [] inFtr) [0x09, 0x68]).Inv ∧
    step (placeRequest (machineWith Profile.standard [] inFtr) [0x09, 0x68]) = .next t :=
  ⟨_, ⟨ftr_inv.sdec, ftr_inv.acr⟩, rfl⟩

/-- FrameInProgressEndsIdle: three bytes from PAY, two from FTR. -/
theorem witness_in_progress :
    ((machineWith Profile.standard [] inPay1).Inv ∧ (machineWith Profile.standard [] inPay1).sdecConn.Ready ∧
      inPay1.state = .pay ∧ inPay1.buf.length + ([1, 2, 3] : List Byte).length =
        Profile.standard.headerSize + inPay1.payloadLen + Profile.standard.footerSize) ∧
    ((machineWith Profile.standard [] inFtr).Inv ∧ inFtr.state = .ftr ∧ inFtr.buf.length + ([1, 2] : List Byte).length =
        Profile.standard.headerSize + inFtr.payloadLen + Profile.standard.footerSize) :=
  ⟨⟨pay1_inv, by decide, by decide, by decide⟩, ftr_inv, by decide, by decide⟩

/-- InsideAFrameStartBytesAreNotCompared, from HDR, PAY and FTR. -/
theorem witness_inside :
    (inHdr.state = .hdr ∧ ∃ t, exec (.sdecStep 0x90) (machineWith Profile.standard [] inHdr) = .next t) ∧
    (inPay.state = .pay ∧ ∃ t, exec (.sdecStep 0x90) (machineWith Profile.standard [] inPay) = .next t) ∧
    (inFtr.state = .ftr ∧ ∃ t, exec (.sdecStep 0x90) (machineWith Profile.standard [] inFtr) = .next t) :=
  ⟨⟨by decide, _, rfl⟩, ⟨by decide, _, rfl⟩, by decide, _, rfl⟩

/-- NextFeedsUpToTheFirstValidResult and ChunkingDoesNotMatter. -/
theorem witness_reader : (readerWith inPay1 [0x00]).acrConn.Ready := by decide

/-- EveryInstructionInItsDomainAnswers: the operations that take a profile or a lookup, and SDEC.STEP and ACR.NEXT. -/
theorem witness_domain_operands :
    inDomain State.reset (.cfgOverhead Profile.network) ∧ inDomain State.reset (.encEncode Profile.standard 0 [] 0 0 0 0) ∧
    inDomain State.reset (.decValidate customB [] (some [(8, 2)])) ∧ inDomain State.reset (.frameSensor (some [(5, 2)]) 0 []) ∧
    inDomain State.reset (.frameGeneric customA none [] []) ∧ inDomain State.reset (.sdecStep 0) ∧
    inDomain State.reset .acrNext :=
  ⟨(by decide : Profile.network.WF), ⟨by decide, .inl rfl⟩, ready_customB, (by decide : lookupFits [(5, 2)] = true),
    (by decide : Connection.Ready ⟨customA, []⟩), ready_standard, ready_standard⟩

/-- EveryInstructionInItsDomainAnswers: each state row, and a lengthless payload of the largest size. -/
theorem witness_domain_rows :
    inDomain State.reset (.sdecStepLfs1 0) ∧ inDomain (machineWith Profile.standard [] inLfs2) (.sdecStepLfs2 0) ∧
    inDomain (machineWith Profile.standard [] inHdr) (.sdecStepHdr 0) ∧
    inDomain (machineWith Profile.standard [] inPay) (.sdecStepPay 0) ∧
    inDomain (machineWith Profile.standard [] inFtr) (.sdecStepFtr 0) ∧
    inDomain State.reset (.encEncode Profile.ipc 0 (List.replicate Config.payloadCap 0) 0 0 0 0) :=
  ⟨ready_standard, ready_standard, ready_standard, ready_standard, ready_standard, by decide, .inr (Nat.le_of_eq (List.length_replicate ..))⟩

/-- RefusalsRevealNoHiddenState: a request that is no operation, and a byte for a connection that is not well-formed. -/
theorem witness_refused :
    step (placeRequest State.reset [0x0E]) = .refused (.badRequest (.undefinedSelectCode 14)) ∧
    step (placeRequest (machineWith ⟨2, 0x90, 0x71, false, false, false, true, 3, false, 2, 4⟩ [] inPay) [0x13, 0]) =
      .refused .illFormedConfiguration :=
  ⟨rfl, rfl⟩

/-- StatelessUnitsArePure: an instruction of each stateless unit. -/
theorem witness_pure :
    ((unitOf (.cfgOverhead Profile.bulk)).stateless = true ∧ ∃ t, exec (.cfgOverhead Profile.bulk) State.reset = .next t) ∧
    ((unitOf (.encEncode Profile.bulk 0 [] 0 0 0 0)).stateless = true ∧
      ∃ t, exec (.encEncode Profile.bulk 0 [] 0 0 0 0) State.reset = .next t) ∧
    ((unitOf (.frameIpc none 0 [])).stateless = true ∧ ∃ t, exec (.frameIpc none 0 []) State.reset = .next t) :=
  ⟨⟨by decide, _, rfl⟩, ⟨by decide, _, rfl⟩, by decide, _, rfl⟩

/-- UnitsShareNothing: an instruction of each unit with state. -/
theorem witness_share_nothing :
    (∃ t, exec (.chkUpdate 1) State.reset = .next t) ∧ (∃ t, exec (.sdecStep 1) State.reset = .next t) ∧
    ∃ t, exec .acrNext State.reset = .next t :=
  ⟨⟨_, rfl⟩, ⟨_, rfl⟩, _, rfl⟩

end Sys2Proof.Tests
end

section
/-!
SUPPORT. A lookup beyond `PAYLOAD_CAP` at the interface (00_scope.md R8, 10_state.md R24): which lookups do not fit, and what
the decoding operations answer to one.
-/

namespace Sys2Proof.Machine

/-- A lookup does not fit exactly where one of its answers exceeds `PAYLOAD_CAP` (R24). -/
theorem lookupFits_eq_false_iff (l : Lookup) : lookupFits l = false ↔ ∃ e ∈ l, Config.payloadCap < e.2 := by
  simp only [lookupFits, List.all_eq_false, withinPayloadCap_iff, not_le]

/-- The admission check of every decoding operation: a well-formed lengthless profile with a lookup that does not fit. -/
theorem withDecoder_not_fits {p : Profile} {l : Lookup} (hp : p.WF) (hlen : p.hasLength = false)
    (hl : lookupFits l = false) (k : Answer) : withDecoder p l k = .refused .capacityExceeded := by
  have hnot : ¬ (p.hasLength = true ∨ lookupFits l = true) := by simp [hlen, hl]
  rw [withDecoder, withProfile_wf hp, if_neg hnot]

/-- Settles O23: all four operations pass the one admission check `withDecoder`, which such a lookup fails. -/
theorem lookupBeyondPayloadCapIsRefused : Obligations.LookupBeyondPayloadCapIsRefused := by
  intro s p l hp hlen hbeyond
  have hrefused := withDecoder_not_fits hp hlen ((lookupFits_eq_false_iff l).mpr hbeyond)
  refine ⟨fun buffer => ?validate, fun fields body => ?generic, fun hconn b => ?step, fun hconn => ?next⟩
  case validate => rw [exec_decValidate, execDecValidate, validateOp, Option.getD_some, hrefused]
  case generic => rw [exec_frameGeneric, execFrameGeneric, validateOp, Option.getD_some, hrefused]
  case step => rw [exec_sdecStep, execSdecStep, sdecByte, hconn, hrefused]
  case next => rw [exec_acrNext, execAcrNext, hconn, hrefused]

end Sys2Proof.Machine
end

section
/-!
SUPPORT. What one step can do (00_scope.md R7, R9): which operations write the result alone, what the others do to the state
of their unit, and which checks can refuse them.
-/

namespace Sys2Proof.Machine

/-! ### Admission: whether an operation runs depends on its configuration alone (R107, R24) -/

theorem withProfile_cases (p : Profile) :
    (∀ k, withProfile p k = k) ∨ ∃ r, ∀ k, withProfile p k = .refused r := by
  by_cases hp : p.WF
  · exact .inl (withProfile_wf hp)
  · exact .inr ⟨_, withProfile_not_wf hp⟩

theorem withDecoder_cases (p : Profile) (l : Lookup) :
    (∀ k, withDecoder p l k = k) ∨ ∃ r, ∀ k, withDecoder p l k = .refused r := by
  rcases withProfile_cases p with hp | ⟨r, hp⟩
  · by_cases hl : p.hasLength = true ∨ lookupFits l = true
    · exact .inl fun k => by rw [withDecoder, hp, if_pos hl]
    · exact .inr ⟨_, fun k => by rw [withDecoder, hp, if_neg hl]⟩
  · exact .inr ⟨r, fun k => hp _⟩

/-- Two decoding operations of one configuration that complete where they are admitted are refused together. -/
theorem withDecoder_refused_congr {p : Profile} {l : Lookup} {s : State} {x : Result} {r : Refusal}
    (h : withDecoder p l (complete s x) = .refused r) (k : Answer) : withDecoder p l k = .refused r := by
  rcases withDecoder_cases p l with hk | ⟨r', hk⟩
  · rw [hk] at h
    cases h
  · rw [hk] at h ⊢
    exact h

/-! ### Operations that write the result alone (R26) -/

/-- The answer of an operation with result `r`, or with a refusal, that writes nothing else. -/
def answerOnly (a : Except Refusal Result) (s : State) : Answer :=
  match a with
  | .ok r => complete s r
  | .error r => .refused r

/-- An operation whose result or refusal is the same in every state, and which writes the result alone. -/
def WritesResultOnly (op : State → Answer) : Prop := ∃ a, ∀ s, op s = answerOnly a s

theorem withProfile_writesResultOnly (p : Profile) (r : Result) :
    WritesResultOnly fun s => withProfile p (complete s r) := by
  rcases withProfile_cases p with h | ⟨e, h⟩
  · exact ⟨.ok r, fun s => h _⟩
  · exact ⟨.error e, fun s => h _⟩

theorem validateOp_writesResultOnly (p : Profile) (buffer : List Byte) (l : Option Lookup) :
    WritesResultOnly (validateOp p buffer l) := by
  rcases withDecoder_cases p (l.getD []) with h | ⟨e, h⟩
  · exact ⟨.ok (.parse (validateResult p buffer (l.getD []))), fun s => h _⟩
  · exact ⟨.error e, fun s => h _⟩

theorem execEncEncode_writesResultOnly (p : Profile) (m : Byte) (pl : List Byte) (sq sy co pk : Byte) :
    WritesResultOnly (execEncEncode p m pl sq sy co pk) := by
  by_cases hfits : p.hasLength = true ∨ withinPayloadCap pl.length = true
  · simpa only [WritesResultOnly, execEncEncode, if_pos hfits] using
      withProfile_writesResultOnly p (encodeResult (encodeFrame p m pl sq sy co pk))
  · simp only [WritesResultOnly, execEncEncode, if_neg hfits]
    rcases withProfile_cases p with h | ⟨e, h⟩
    · exact ⟨.error .capacityExceeded, fun s => h _⟩
    · exact ⟨.error e, fun s => h _⟩

/-- CFG, ENC, DEC1 and the frame rows write the result alone (R26, R152, R170). -/
theorem exec_writesResultOnly : ∀ {i : Instr}, (unitOf i).stateless = true → WritesResultOnly (exec i)
  | .cfgHeaderSize p, _ => withProfile_writesResultOnly p _
  | .cfgMaxPayload p, _ => withProfile_writesResultOnly p _
  | .cfgOverhead p, _ => withProfile_writesResultOnly p _
  | .encEncode p m pl sq sy co pk, _ => execEncEncode_writesResultOnly p m pl sq sy co pk
  | .decValidate p buffer l, _ => validateOp_writesResultOnly p buffer l
  | .frameStandard n m body, _ =>
    validateOp_writesResultOnly Profile.standard (Profile.standard.startBytes ++ n :: m :: body) none
  | .frameSensor l m body, _ =>
    validateOp_writesResultOnly Profile.sensor (Profile.sensor.startBytes ++ m :: body) l
  | .frameIpc l m body, _ =>
    validateOp_writesResultOnly Profile.ipc (Profile.ipc.startBytes ++ m :: body) l
  | .frameBulk lo hi pk m body, _ =>
    validateOp_writesResultOnly Profile.bulk (Profile.bulk.startBytes ++ lo :: hi :: pk :: m :: body) none
  | .frameNetwork sq sy co lo hi pk m body, _ =>
    validateOp_writesResultOnly Profile.network
      (Profile.network.startBytes ++ sq :: sy :: co :: lo :: hi :: pk :: m :: body) none
  | .frameGeneric p l fields body, _ => validateOp_writesResultOnly p (p.startBytes ++ (fields ++ body)) l

/-- Settles O57: an operation that writes the result alone has one answer for every state. -/
theorem statelessUnitsArePure : Obligations.StatelessUnitsArePure := by
  intro i s s' t hi h
  obtain ⟨a, ha⟩ := exec_writesResultOnly hi
  rw [ha] at h ⊢
  cases a with
  | ok r => exact ⟨r, (Host.Outcome.next.inj h).symm, rfl⟩
  | error e => cases h

/-! ### The operations of the units with state -/

/-- A CHK operation is never refused, and writes the CHK registers and the result. -/
theorem exec_chk : ∀ {i : Instr}, unitOf i = .chk →
    ∃ (f : Chk → Chk) (r : Result), ∀ s, exec i s = .next { s with chk := f s.chk, result := r }
  | .chkInit, _ => ⟨fun _ => ⟨0, 0⟩, .none, fun _ => rfl⟩
  | .chkUpdate b, _ => ⟨fun c => fletcherByte c b, .none, fun _ => rfl⟩
  | .chkCompute bs, _ => ⟨fun _ => fletcher bs, _, fun _ => rfl⟩
  | .chkVerify bs f0 f1, _ => ⟨fun _ => fletcher bs, .verified (footerMatches bs f0 f1), fun _ => rfl⟩

/-- An SDEC operation is the reset, or in every state an SDEC.STEP of one byte (R181; the state rows by log 2). -/
theorem exec_sdec : ∀ {i : Instr}, unitOf i = .sdec → i = .sdecReset ∨ ∃ b, ∀ s, exec i s = execSdecStep b s
  | .sdecReset, _ => .inl rfl
  | .sdecStep b, _ => .inr ⟨b, fun _ => rfl⟩
  | .sdecStepLfs1 b, _ => .inr ⟨b, fun _ => stepByRow_eq fun h => (sdecStep_lfs1 h _ _ b).symm⟩
  | .sdecStepLfs2 b, _ => .inr ⟨b, fun _ => stepByRow_eq fun h => (sdecStep_lfs2 h _ _ b).symm⟩
  | .sdecStepHdr b, _ => .inr ⟨b, fun _ => stepByRow_eq fun h => (sdecStep_hdr h _ _ b).symm⟩
  | .sdecStepPay b, _ => .inr ⟨b, fun _ => stepByRow_eq fun h => (sdecStep_pay h _ _ b).symm⟩
  | .sdecStepFtr b, _ => .inr ⟨b, fun _ => stepByRow_eq fun h => (sdecStep_ftr h _ _ b).symm⟩

/-- An ACR operation is ACR.NEXT, or it is never refused and leaves the decoder inside as it is or resets it. -/
theorem exec_acr : ∀ {i : Instr}, unitOf i = .acr → i = .acrNext ∨
    ∃ f : Acr → Acr, (∀ a, (f a).dec = a.dec ∨ (f a).dec = Sdec.idle) ∧
      ∀ s, exec i s = .next { s with acr := f s.acr, result := .none }
  | .acrNext, _ => .inl rfl
  | .acrPush bs, _ => .inr ⟨fun a => { a with queue := a.queue ++ bs }, fun _ => .inl rfl, fun _ => rfl⟩
  | .acrReset, _ => .inr ⟨fun _ => { dec := Sdec.idle, queue := [] }, fun _ => .inr rfl, fun _ => rfl⟩

/-! ### What an operation does to the decoders -/

/-- What an operation can make of a decoder: the idle state, or what a sequence of bytes makes of it (R181, R182). -/
def DecoderReaches (c : Connection) (d d' : Sdec) : Prop :=
  d' = Sdec.idle ∨ ∃ bs, d' = (feed c.profile c.lookup d bs).1

theorem DecoderReaches.refl (c : Connection) (d : Sdec) : DecoderReaches c d d := .inr ⟨[], rfl⟩

theorem sdecStep_reaches (c : Connection) (d : Sdec) (b : Byte) :
    DecoderReaches c d (sdecStep c.profile c.lookup d b).dec := .inr ⟨[b], rfl⟩

theorem drainQueue_reaches (c : Connection) (d : Sdec) (q : List Byte) :
    DecoderReaches c d (drainQueue c.profile c.lookup d q).1 := by
  rcases drainQueue_cases c.profile c.lookup q d with ⟨-, -, hfeed⟩ | ⟨fed, r, -, -, -, hidle, -⟩
  · exact .inr ⟨q, by rw [hfeed]⟩
  · exact .inl hidle

theorem feed_inv {c : Connection} (bs : List Byte) :
    ∀ {d : Sdec}, SdecInv c d → SdecInv c (feed c.profile c.lookup d bs).1 := by
  induction bs with
  | nil => exact id
  | cons b bs ih => exact fun h => ih (sdecStep_inv h b)

theorem DecoderReaches.inv {c : Connection} {d d' : Sdec} (h : DecoderReaches c d d') (hd : SdecInv c d) : SdecInv c d' := by
  rcases h with rfl | ⟨bs, rfl⟩
  · exact idle_inv hd.profile
  · exact feed_inv bs hd

/-- What an operation of a unit does to the machine: it writes the state of its own unit and the result (R7). -/
def UnitEffect (s t : State) : CodecUnit → Prop
  | .chk => ∃ c r, t = { s with chk := c, result := r }
  | .cfg | .enc | .dec => ∃ r, t = { s with result := r }
  | .sdec => ∃ d r, t = { s with sdec := d, result := r } ∧ DecoderReaches s.sdecConn s.sdec d
  | .acr => ∃ a r, t = { s with acr := a, result := r } ∧ DecoderReaches s.acrConn s.acr.dec a.dec

theorem execSdecStep_effect {b : Byte} {s t : State} (h : execSdecStep b s = .next t) : UnitEffect s t .sdec :=
  ⟨_, _, (sdecByte_next h).2, sdecStep_reaches _ _ b⟩

theorem execAcrNext_effect {s t : State} (h : execAcrNext s = .next t) : UnitEffect s t .acr := by
  obtain ⟨-, -, ht⟩ := withDecoder_next h
  exact ⟨_, _, (Host.Outcome.next.inj ht).symm, drainQueue_reaches _ _ _⟩

/-- Everything an instruction that answers a next state can have done. -/
theorem exec_effect {i : Instr} {s t : State} (h : exec i s = .next t) : UnitEffect s t (unitOf i) := by
  have stateless (hi : (unitOf i).stateless = true) : ∃ r, t = { s with result := r } := by
    obtain ⟨r, ht, -⟩ := statelessUnitsArePure i s s t hi h
    exact ⟨r, ht⟩
  cases hu : unitOf i with
  | cfg => exact stateless (by rw [hu]; rfl)
  | enc => exact stateless (by rw [hu]; rfl)
  | dec => exact stateless (by rw [hu]; rfl)
  | chk =>
    obtain ⟨f, r, hexec⟩ := exec_chk hu
    exact ⟨_, r, Host.Outcome.next.inj (h.symm.trans (hexec s))⟩
  | sdec =>
    rcases exec_sdec hu with rfl | ⟨b, hexec⟩
    · exact ⟨Sdec.idle, .none, (Host.Outcome.next.inj h).symm, .inl rfl⟩
    · exact execSdecStep_effect ((hexec s).symm.trans h)
  | acr =>
    rcases exec_acr hu with rfl | ⟨f, hdec, hexec⟩
    · exact execAcrNext_effect h
    · refine ⟨f s.acr, .none, Host.Outcome.next.inj (h.symm.trans (hexec s)), ?_⟩
      rcases hdec s.acr with hkeep | hidle
      · rw [hkeep]
        exact .refl _ _
      · exact .inl hidle

/-! ### One step -/

theorem step_idle {s : State} (h : s.requests = []) : step s = .next s := by
  rw [step, takeRequest_nil s h]

theorem step_of_decode_error {s : State} {q : List Byte} {rest : List (List Byte)} {e : Reject}
    (h : s.requests = q :: rest) (hd : decode q = .error e) : step s = .refused (.badRequest e) := by
  simp only [step, takeRequest_cons s q rest h, hd]

theorem step_of_decode_ok {s : State} {q : List Byte} {rest : List (List Byte)} {i : Instr}
    (h : s.requests = q :: rest) (hd : decode q = .ok i) : step s = exec i { s with requests := rest } := by
  simp only [step, takeRequest_cons s q rest h, hd]

/-- Everything a step that answers a next state can have done: nothing was issued, or the oldest request was performed (R74,
log 3). -/
theorem step_next {s t : State} (h : step s = .next t) :
    (s.requests = [] ∧ t = s) ∨
      ∃ q rest i, s.requests = q :: rest ∧ decode q = .ok i ∧ exec i { s with requests := rest } = .next t := by
  cases hq : s.requests with
  | nil => exact .inl ⟨rfl, (Host.Outcome.next.inj ((step_idle hq).symm.trans h)).symm⟩
  | cons q rest =>
    cases hd : decode q with
    | error e => cases (step_of_decode_error hq hd).symm.trans h
    | ok i => exact .inr ⟨q, rest, i, rfl, hd, (step_of_decode_ok hq hd).symm.trans h⟩

/-- Everything a refused step can have met: a request that is no instruction, or one whose instruction is refused. -/
theorem step_refused {s : State} {r : Refusal} (h : step s = .refused r) :
    ∃ q rest, s.requests = q :: rest ∧ ((∃ e, decode q = .error e ∧ r = .badRequest e) ∨
      ∃ i, decode q = .ok i ∧ exec i { s with requests := rest } = .refused r) := by
  cases hq : s.requests with
  | nil => cases (step_idle hq).symm.trans h
  | cons q rest =>
    refine ⟨q, rest, rfl, ?_⟩
    cases hd : decode q with
    | error e => exact .inl ⟨e, rfl, Host.Outcome.refused.inj (h.symm.trans (step_of_decode_error hq hd))⟩
    | ok i => exact .inr ⟨i, rfl, (step_of_decode_ok hq hd).symm.trans h⟩

theorem UnitEffect.inv {u : CodecUnit} {s t : State} (h : UnitEffect s t u) (hs : s.Inv) : t.Inv := by
  cases u with
  | chk => obtain ⟨c, r, rfl⟩ := h; exact ⟨hs.sdec, hs.acr⟩
  | cfg => obtain ⟨r, rfl⟩ := h; exact ⟨hs.sdec, hs.acr⟩
  | enc => obtain ⟨r, rfl⟩ := h; exact ⟨hs.sdec, hs.acr⟩
  | dec => obtain ⟨r, rfl⟩ := h; exact ⟨hs.sdec, hs.acr⟩
  | sdec => obtain ⟨d, r, rfl, hd⟩ := h; exact ⟨hd.inv hs.sdec, hs.acr⟩
  | acr => obtain ⟨a, r, rfl, ha⟩ := h; exact ⟨hs.sdec, ha.inv hs.acr⟩

/-- Settles O46: an operation makes of a decoder the idle state or what a sequence of bytes makes of it, and a byte keeps the
invariant. -/
theorem everyStepKeepsTheInvariant : Obligations.EveryStepKeepsTheInvariant := by
  intro s t hs h
  rcases step_next h with ⟨-, rfl⟩ | ⟨-, rest, i, -, -, hexec⟩
  · exact hs
  · exact (exec_effect hexec).inv ⟨hs.sdec, hs.acr⟩

/-! ### Refusals (R36) -/

/-- Whether and how an instruction is refused depends on its operands and the two connections alone. -/
theorem exec_refused_congr {i : Instr} {s s' : State} {r : Refusal} (h : exec i s = .refused r)
    (hsdec : s'.sdecConn = s.sdecConn) (hacr : s'.acrConn = s.acrConn) : exec i s' = .refused r := by
  have stateless (hi : (unitOf i).stateless = true) : exec i s' = .refused r := by
    obtain ⟨a, ha⟩ := exec_writesResultOnly hi
    rw [ha] at h ⊢
    cases a with
    | ok x => cases h
    | error e => exact h
  cases hu : unitOf i with
  | cfg => exact stateless (by rw [hu]; rfl)
  | enc => exact stateless (by rw [hu]; rfl)
  | dec => exact stateless (by rw [hu]; rfl)
  | chk =>
    obtain ⟨f, x, hexec⟩ := exec_chk hu
    cases (hexec s).symm.trans h
  | sdec =>
    rcases exec_sdec hu with rfl | ⟨b, hexec⟩
    · cases h
    · rw [hexec, execSdecStep, sdecByte] at h ⊢
      rw [hsdec]
      exact withDecoder_refused_congr h _
  | acr =>
    rcases exec_acr hu with rfl | ⟨f, -, hexec⟩
    · rw [exec_acrNext, execAcrNext] at h ⊢
      rw [hacr]
      exact withDecoder_refused_congr h _
    · cases (hexec s).symm.trans h

/-- Settles O60: decoding reads the request alone, and an instruction's admission the connections alone. -/
theorem refusalsRevealNoHiddenState : Obligations.RefusalsRevealNoHiddenState := by
  intro s d a r h
  obtain ⟨q, rest, hq, ⟨e, hd, rfl⟩ | ⟨i, hd, hexec⟩⟩ := step_refused h
  · exact step_of_decode_error hq hd
  · exact (step_of_decode_ok (s := { s with sdec := d, acr := a }) hq hd).trans (exec_refused_congr hexec rfl rfl)

/-! ### Power-on (R40) -/

/-- Settles O45: both decoders are idle, and the idle state meets the invariant. -/
theorem powerOnMeetsTheInvariant : Obligations.PowerOnMeetsTheInvariant :=
  fun _ _ ha hb => ⟨idle_inv ha, idle_inv hb⟩

/-- Settles O1: the registers of CHK are zero and both decoders are idle, field by field. -/
theorem powerOnLeavesEveryElementAtItsResetValue : Obligations.PowerOnLeavesEveryElementAtItsResetValue := by
  intro a b
  refine ⟨rfl, rfl, rfl, rfl, rfl, fun d hd => ?_⟩
  have hidle : d = Sdec.idle := by simpa using hd
  subst hidle
  simp

/-- Settles O2: `State.reset` is that power-on by definition. -/
theorem resetIsPowerOnWithTheStandardProfile : Obligations.ResetIsPowerOnWithTheStandardProfile :=
  ⟨rfl, powerOn_requests _ _, powerOn_result _ _⟩

end Sys2Proof.Machine
end

section
/-!
SUPPORT. What the units share, and what a buffer can hold (20_memory.md R60, R73, R74, R75, R79): the frame of an instruction,
the oldest request, and the size of the frame in progress.
-/

namespace Sys2Proof.Machine

/-! ### The oldest request (R74) -/

/-- Settles O3: the oldest request is taken, and what it decodes to is executed. -/
theorem stepPerformsTheOldestRequest : Obligations.StepPerformsTheOldestRequest :=
  fun _ _ _ _ hq hd => step_of_decode_ok hq hd

/-- Settles O4: there is no request to take. -/
theorem stepWithNothingIssuedChangesNothing : Obligations.StepWithNothingIssuedChangesNothing :=
  fun _ hq => step_idle hq

/-! ### The frame of an instruction (R60, R75, R79) -/

/-- What the effect of a unit leaves unchanged: the requests, both connections, and the state of every other unit. -/
theorem UnitEffect.frame {u : CodecUnit} {s t : State} (h : UnitEffect s t u) :
    t.requests = s.requests ∧ t.sdecConn = s.sdecConn ∧ t.acrConn = s.acrConn ∧
      (u ≠ .chk → t.chk = s.chk) ∧ (u ≠ .sdec → t.sdec = s.sdec) ∧ (u ≠ .acr → t.acr = s.acr) := by
  cases u with
  | cfg | enc | dec =>
    obtain ⟨r, rfl⟩ := h
    exact ⟨rfl, rfl, rfl, fun _ => rfl, fun _ => rfl, fun _ => rfl⟩
  | chk =>
    obtain ⟨c, r, rfl⟩ := h
    exact ⟨rfl, rfl, rfl, fun own => absurd rfl own, fun _ => rfl, fun _ => rfl⟩
  | sdec =>
    obtain ⟨d, r, rfl, -⟩ := h
    exact ⟨rfl, rfl, rfl, fun _ => rfl, fun own => absurd rfl own, fun _ => rfl⟩
  | acr =>
    obtain ⟨a, r, rfl, -⟩ := h
    exact ⟨rfl, rfl, rfl, fun _ => rfl, fun _ => rfl, fun own => absurd rfl own⟩

/-- Settles O58: an instruction has the effect of its own unit, and that effect has this frame. -/
theorem unitsShareNothing : Obligations.UnitsShareNothing :=
  fun _ _ _ h => (exec_effect h).frame

/-- Settles O59: a step is idle or performs one instruction, whose frame holds both connections. -/
theorem configurationIsConstant : Obligations.ConfigurationIsConstant := by
  intro s t h
  rcases step_next h with ⟨-, rfl⟩ | ⟨-, rest, i, -, -, hexec⟩
  · exact ⟨rfl, rfl⟩
  · obtain ⟨-, hsdec, hacr, -⟩ := unitsShareNothing i _ t hexec
    exact ⟨hsdec, hacr⟩

end Sys2Proof.Machine

/-! ### The size of a frame (R73) -/

namespace Sys2Proof

/-- A header has at most two start bytes and seven field bytes (R140, R141). -/
theorem Profile.WF.headerSize_le {p : Profile} (h : p.WF) : p.headerSize ≤ 9 := by
  have hstart := h.nStart_le
  have hfields := p.hdrLen_le
  rw [h.headerSize_eq]
  omega

/-- A footer has no bytes or two (R141). -/
theorem Profile.WF.footerSize_le {p : Profile} (h : p.WF) : p.footerSize ≤ 2 := by
  rcases h.footer_cases with hf | hf <;> omega

/-- `M` of R8 is at most 65535 with a length field, and `PAYLOAD_CAP` without one (R143). -/
theorem Profile.maxPayload_getD_le (p : Profile) (cap : Nat) :
    p.maxPayload.getD cap ≤ if p.hasLength then 65535 else cap := by
  unfold Profile.maxPayload
  split
  · rw [Option.getD_some]
    split <;> omega
  · exact Nat.le_refl cap

end Sys2Proof

namespace Sys2Proof.Machine

/-- A length field of `length_width` bytes holds at most `max_payload(P)` (R100, R143). -/
theorem decodeLen_le (p : Profile) (s : List Byte) : decodeLen p s ≤ if p.lengthWidth = 1 then 255 else 65535 := by
  have hlow := (byteAt s (offLen p)).isLt
  have hhigh := (byteAt s (offLen p + 1)).isLt
  unfold decodeLen
  split <;> split <;> omega

/-- A declared payload length is at most `M` of R8: the length field bounds it, or the admitted lookup does (R24). -/
theorem payloadLength_le {c : Connection} (hc : c.Ready) {s : List Byte} {n : Nat}
    (hn : payloadLength c.profile c.lookup s = some n) : n ≤ c.profile.maxPayload.getD Config.payloadCap := by
  unfold payloadLength at hn
  unfold Profile.maxPayload
  split at hn
  · rename_i hlen
    rw [if_pos hlen, Option.getD_some, ← Option.some.inj hn]
    exact decodeLen_le c.profile s
  · rename_i hlen
    rw [if_neg hlen, Option.getD_none]
    exact lookupLength_le (hc.2.resolve_left hlen) hn

/-- The frame in progress (R39): its payload length is still 0 or the one its header declares, and the buffer holds no more
than that frame. -/
theorem SdecInv.frame_in_progress {c : Connection} {d : Sdec} (h : SdecInv c d) :
    (d.payloadLen = 0 ∨ payloadLength c.profile c.lookup d.buf = some d.payloadLen) ∧
      d.buf.length ≤ totalSize c.profile d.payloadLen := by
  obtain ⟨hp, -, hs⟩ := h
  have hheader := hp.headerSize_eq
  unfold totalSize Profile.overhead
  cases hst : d.state <;> simp only [stateInv, hst] at hs
  case lfs1 => simp [hs]
  case lfs2 =>
    obtain ⟨hstart, hbuf, -, -, -, hzero⟩ := hs
    exact ⟨.inl hzero, by rw [hbuf, List.length_singleton]; omega⟩
  case hdr =>
    obtain ⟨hbuf, hcursor, -, -, -, -, hzero⟩ := hs
    exact ⟨.inl hzero, by omega⟩
  case pay =>
    obtain ⟨-, -, hbuf, -, -, hdeclared⟩ := hs
    exact ⟨.inr hdeclared, by omega⟩
  case ftr =>
    obtain ⟨hfooter, -, -, -, hbuf, -, hdeclared⟩ := hs
    exact ⟨.inr hdeclared, by omega⟩

/-- The payload of the frame in progress is at most `M` of R8. -/
theorem SdecInv.payloadLen_le {c : Connection} {d : Sdec} (h : SdecInv c d) (hc : c.Ready) :
    d.payloadLen ≤ c.profile.maxPayload.getD Config.payloadCap := by
  rcases h.frame_in_progress.1 with hzero | hdeclared
  · omega
  · exact payloadLength_le hc hdeclared

/-- The buffer holds at most one frame (R39, R73). -/
theorem SdecInv.buf_length_le {c : Connection} {d : Sdec} (h : SdecInv c d) :
    d.buf.length ≤ c.profile.headerSize + d.payloadLen + c.profile.footerSize := by
  have hbuf := h.frame_in_progress.2
  unfold totalSize Profile.overhead at hbuf
  omega

/-- The invariant of the machine is that of each of its decoders. -/
theorem State.Inv.decoders {s : State} (h : s.Inv) {e : Connection × Sdec} (he : e ∈ s.decoders) : SdecInv e.1 e.2 := by
  rcases List.mem_pair.mp he with rfl | rfl
  · exact h.sdec
  · exact h.acr

/-- Settles O47: the invariant bounds the buffer by the frame in progress, and the frame's payload is at most `M` of R8, which
`bufCap` makes room for. -/
theorem bufferHoldsAtMostOneFrame : Obligations.BufferHoldsAtMostOneFrame := by
  intro s hs e he hready p frame
  have hinv := hs.decoders he
  have hheader : p.headerSize ≤ 9 := hinv.profile.headerSize_le
  have hfooter : p.footerSize ≤ 2 := hinv.profile.footerSize_le
  have hpayload : e.2.payloadLen ≤ p.maxPayload.getD Config.payloadCap := hinv.payloadLen_le hready
  have hmax := p.maxPayload_getD_le Config.payloadCap
  refine ⟨hinv.buf_length_le, by omega, fun cap hcap => ?_⟩
  unfold bufCap at hcap
  omega

end Sys2Proof.Machine
end

section
/-!
SUPPORT. The requests of instructions (30_encoding.md R110, R111, R114; layout log 4): what the decoder reads from an encoded
request, and from which requests it reads an instruction at all.
-/

namespace Sys2Proof

/-! ### The first byte of a request selects the row (R110, R111, R114) -/

theorem decode_op (code : Nat) (bs : List Byte) (h : code < 16 := by decide) :
    decode (BitVec.ofNat 8 code :: bs) = decodeOp code bs := by
  have hsel : (BitVec.ofNat 8 code).toNat = code := by rw [BitVec.toNat_ofNat]; omega
  simp only [decode, hsel, Nat.div_eq_of_lt h, Nat.mod_eq_of_lt h]

theorem decode_stateRow (code : Nat) (bs : List Byte) (h : code < 16 := by decide) :
    decode (BitVec.ofNat 8 (16 + code) :: bs) = decodeStateRow code bs := by
  have hsel : (BitVec.ofNat 8 (16 + code)).toNat = 16 + code := by rw [BitVec.toNat_ofNat]; omega
  have hformat : (16 + code) / 16 = 1 := by omega
  have hcode : (16 + code) % 16 = code := by omega
  simp only [decode, hsel, hformat, hcode]

theorem decode_frameRow (code : Nat) (bs : List Byte) (h : code < 16 := by decide) :
    decode (BitVec.ofNat 8 (32 + code) :: bs) = decodeFrameRow code bs := by
  have hsel : (BitVec.ofNat 8 (32 + code)).toNat = 32 + code := by rw [BitVec.toNat_ofNat]; omega
  have hformat : (32 + code) / 16 = 2 := by omega
  have hcode : (32 + code) % 16 = code := by omega
  simp only [decode, hsel, hformat, hcode]

/-! ### Decoding what was encoded, operand form by operand form -/

@[simp] theorem afterStart_append (start bs : List Byte) : afterStart start (start ++ bs) = .ok bs := by
  simp [afterStart]

theorem decodeProfileOperand_encodeProfile (mk : Profile → Instr) {p : Profile} (h : profileOk p = true) :
    decodeProfileOperand mk (encodeProfile p) = .ok (mk p) := by
  have hp := decodeProfile_encodeProfile p [] h
  rw [List.append_nil] at hp
  simp only [decodeProfileOperand, hp, decodeNoOperand]

theorem decodeGeneric_encode {p : Profile} {l : Option Lookup} {fields : List Byte} (body : List Byte)
    (hp : profileOk p = true) (hl : optLookupOk l = true) (hfields : fields.length = p.hdrLen) :
    decodeGeneric (encodeProfile p ++ (encodeLookup l ++ (p.startBytes ++ (fields ++ body)))) =
      .ok (.frameGeneric p l fields body) := by
  simp [decodeGeneric, hp, hl, ← hfields]

/-- Settles O6: row by row, the decoder of the row's operands reads back what the encoder wrote. -/
theorem decodeOfEncodeIsTheInstruction : Obligations.DecodeOfEncodeIsTheInstruction
  | .chkInit, _ => decode_op 0x0 _
  | .chkUpdate _, _ => decode_op 0x1 _
  | .chkCompute _, _ => decode_op 0x2 _
  | .chkVerify _ _ _, _ => decode_op 0x3 _
  | .cfgHeaderSize _, h => (decode_op 0x4 _).trans (decodeProfileOperand_encodeProfile .cfgHeaderSize h)
  | .cfgMaxPayload _, h => (decode_op 0x5 _).trans (decodeProfileOperand_encodeProfile .cfgMaxPayload h)
  | .cfgOverhead _, h => (decode_op 0x6 _).trans (decodeProfileOperand_encodeProfile .cfgOverhead h)
  | .encEncode p m payload sq sy co pk, h => by
    have hp : profileOk p = true := h
    refine (decode_op 0x7 _).trans ?_
    simp only [decodeOp, encodeOperands, decodeEncode, decodeProfile_encodeProfile, hp]
  | .decValidate p buffer l, h => by
    obtain ⟨hp, hl⟩ := Bool.and_eq_true_iff.mp h
    refine (decode_op 0x8 _).trans ?_
    simp only [decodeOp, encodeOperands, decodeValidate, decodeProfile_encodeProfile, decodeLookup_encodeLookup, hp, hl]
  | .sdecStep _, _ => decode_op 0x9 _
  | .sdecReset, _ => decode_op 0xA _
  | .acrPush _, _ => decode_op 0xB _
  | .acrNext, _ => decode_op 0xC _
  | .acrReset, _ => decode_op 0xD _
  | .sdecStepLfs1 _, _ => decode_stateRow 0 _
  | .sdecStepLfs2 _, _ => decode_stateRow 1 _
  | .sdecStepHdr _, _ => decode_stateRow 2 _
  | .sdecStepPay _, _ => decode_stateRow 3 _
  | .sdecStepFtr _, _ => decode_stateRow 4 _
  | .frameStandard len m body, _ => by
    refine (decode_frameRow 0 _).trans ?_
    simp only [decodeFrameRow, encodeOperands, decodeStandard, afterStart_append]
  | .frameSensor l m body, h => by
    have hl : optLookupOk l = true := h
    refine (decode_frameRow 1 _).trans ?_
    simp only [decodeFrameRow, encodeOperands, decodeSensor, decodeLookup_encodeLookup, hl, afterStart_append]
  | .frameIpc l m body, h => by
    have hl : optLookupOk l = true := h
    refine (decode_frameRow 2 _).trans ?_
    simp only [decodeFrameRow, encodeOperands, decodeIpc, decodeLookup_encodeLookup, hl]
  | .frameBulk lo hi pk m body, _ => by
    refine (decode_frameRow 3 _).trans ?_
    simp only [decodeFrameRow, encodeOperands, decodeBulk, afterStart_append]
  | .frameNetwork sq sy co lo hi pk m body, _ => by
    refine (decode_frameRow 4 _).trans ?_
    simp only [decodeFrameRow, encodeOperands, decodeNetwork, afterStart_append]
  | .frameGeneric p l fields body, h => by
    obtain ⟨hpl, hfields⟩ := Bool.and_eq_true_iff.mp h
    obtain ⟨hp, hl⟩ := Bool.and_eq_true_iff.mp hpl
    exact (decode_frameRow 5 _).trans (decodeGeneric_encode body hp hl (of_decide_eq_true hfields))

/-! ### What a request that decodes looks like, operand form by operand form -/

theorem ofNat_word32 (a b c d : Byte) :
    BitVec.ofNat 8 (word32 a b c d) = a ∧ BitVec.ofNat 8 (word32 a b c d / 256) = b ∧
      BitVec.ofNat 8 (word32 a b c d / 65536) = c ∧ BitVec.ofNat 8 (word32 a b c d / 16777216) = d := by
  have ha := a.isLt
  have hb := b.isLt
  have hc := c.isLt
  have hd := d.isLt
  simp only [← BitVec.toNat_inj, BitVec.toNat_ofNat, word32]
  omega

theorem decodeEntries_ok : ∀ {k : Nat} {bs rest : List Byte} {l : Lookup}, decodeEntries k bs = .ok (l, rest) →
    l.length = k ∧ bs = l.flatMap encodeEntry ++ rest
  | 0, bs, rest, l, h => by
    cases h
    exact ⟨rfl, rfl⟩
  | k + 1, m :: a :: b :: c :: d :: bs, rest, l, h => by
    simp only [decodeEntries] at h
    split at h
    · cases h
    · rename_i l' rest' htail
      cases h
      obtain ⟨hlen, hbs⟩ := decodeEntries_ok htail
      obtain ⟨ha, hb, hc, hd⟩ := ofNat_word32 a b c d
      simp [hlen, hbs, encodeEntry, ha, hb, hc, hd]
  | k + 1, [], _, _, h => by cases h
  | k + 1, [_], _, _, h => by cases h
  | k + 1, [_, _], _, _, h => by cases h
  | k + 1, [_, _, _], _, _, h => by cases h
  | k + 1, [_, _, _, _], _, _, h => by cases h

theorem decodeLookup_ok {bs rest : List Byte} {l : Option Lookup} (h : decodeLookup bs = .ok (l, rest)) :
    optLookupOk l = true ∧ bs = encodeLookup l ++ rest := by
  unfold decodeLookup at h
  split at h
  · cases h
  · rename_i present tail
    split at h
    · rename_i habsent
      cases h
      exact ⟨rfl, by rw [habsent]; rfl⟩
    · split at h
      · rename_i hpresent
        split at h
        · rename_i lo hi entries
          split at h
          · cases h
          · rename_i l' rest' hentries
            split at h
            · rename_i hok
              cases h
              obtain ⟨hlen, rfl⟩ := decodeEntries_ok hentries
              have hlo := lo.isLt
              have hhi := hi.isLt
              have elo : BitVec.ofNat 8 l'.length = lo := by
                rw [← BitVec.toNat_inj, BitVec.toNat_ofNat]; omega
              have ehi : BitVec.ofNat 8 (l'.length / 256) = hi := by
                rw [← BitVec.toNat_inj, BitVec.toNat_ofNat]; omega
              exact ⟨hok, by simp only [hpresent, encodeLookup, elo, ehi, List.cons_append]⟩
            · cases h
        · cases h
      · cases h

theorem afterStart_ok {start bs rest : List Byte} (h : afterStart start bs = .ok rest) : bs = start ++ rest := by
  unfold afterStart at h
  split at h
  · rename_i hpre
    cases h
    exact (List.prefix_iff_eq_append.mp (List.isPrefixOf_iff_prefix.mp hpre)).symm
  · cases h

/-- The byte sequence is the request of the instruction, which is well-formed. -/
def IsRequestOf (r : List Byte) (i : Instr) : Prop := i.wf = true ∧ encode i = r

theorem decodeNoOperand_ok {i j : Instr} {bs : List Byte} (h : decodeNoOperand i bs = .ok j) : bs = [] ∧ j = i := by
  unfold decodeNoOperand at h
  split at h
  · cases h; exact ⟨rfl, rfl⟩
  · cases h

theorem decodeByteOperand_ok {mk : Byte → Instr} {j : Instr} {bs : List Byte} (h : decodeByteOperand mk bs = .ok j) :
    ∃ b, bs = [b] ∧ j = mk b := by
  unfold decodeByteOperand at h
  split at h
  · cases h
  · cases h; exact ⟨_, rfl, rfl⟩
  · cases h

theorem decodeVerify_ok {j : Instr} {bs : List Byte} (h : decodeVerify bs = .ok j) :
    ∃ bs' f0 f1, bs = f0 :: f1 :: bs' ∧ j = .chkVerify bs' f0 f1 := by
  unfold decodeVerify at h
  split at h
  · cases h; exact ⟨_, _, _, rfl, rfl⟩
  · cases h

theorem decodeProfileOperand_ok {mk : Profile → Instr} {j : Instr} {bs : List Byte}
    (h : decodeProfileOperand mk bs = .ok j) : ∃ p, profileOk p = true ∧ bs = encodeProfile p ∧ j = mk p := by
  unfold decodeProfileOperand at h
  split at h
  · cases h
  · rename_i p rest hp
    obtain ⟨hok, rfl⟩ := decodeProfile_ok hp
    obtain ⟨rfl, rfl⟩ := decodeNoOperand_ok h
    exact ⟨p, hok, List.append_nil _, rfl⟩

/-! ### Row by row, a request that decodes is a request of the row -/

theorem decodeEncode_isRequestOf {i : Instr} {bs : List Byte} (h : decodeEncode bs = .ok i) : IsRequestOf (0x07 :: bs) i := by
  unfold decodeEncode at h
  split at h
  · cases h
  · rename_i p m sq sy co pk payload hp
    cases h
    obtain ⟨hok, rfl⟩ := decodeProfile_ok hp
    exact ⟨hok, rfl⟩
  · cases h

theorem decodeValidate_isRequestOf {i : Instr} {bs : List Byte} (h : decodeValidate bs = .ok i) :
    IsRequestOf (0x08 :: bs) i := by
  unfold decodeValidate at h
  split at h
  · cases h
  · rename_i p rest hp
    obtain ⟨hok, rfl⟩ := decodeProfile_ok hp
    split at h
    · cases h
    · rename_i l buffer hl
      obtain ⟨hlok, rfl⟩ := decodeLookup_ok hl
      cases h
      exact ⟨Bool.and_eq_true_iff.mpr ⟨hok, hlok⟩, rfl⟩

theorem decodeStandard_isRequestOf {i : Instr} {bs : List Byte} (h : decodeStandard bs = .ok i) :
    IsRequestOf (0x20 :: bs) i := by
  unfold decodeStandard at h
  split at h
  · cases h
  · rename_i len m body hstart
    cases h
    rw [afterStart_ok hstart]
    exact ⟨rfl, rfl⟩
  · cases h

theorem decodeSensor_isRequestOf {i : Instr} {bs : List Byte} (h : decodeSensor bs = .ok i) : IsRequestOf (0x21 :: bs) i := by
  unfold decodeSensor at h
  split at h
  · cases h
  · rename_i l rest hl
    obtain ⟨hlok, rfl⟩ := decodeLookup_ok hl
    split at h
    · cases h
    · rename_i m body hstart
      cases h
      rw [afterStart_ok hstart]
      exact ⟨hlok, rfl⟩
    · cases h

theorem decodeIpc_isRequestOf {i : Instr} {bs : List Byte} (h : decodeIpc bs = .ok i) : IsRequestOf (0x22 :: bs) i := by
  unfold decodeIpc at h
  split at h
  · cases h
  · rename_i l m body hl
    cases h
    obtain ⟨hlok, rfl⟩ := decodeLookup_ok hl
    exact ⟨hlok, rfl⟩
  · cases h

theorem decodeBulk_isRequestOf {i : Instr} {bs : List Byte} (h : decodeBulk bs = .ok i) : IsRequestOf (0x23 :: bs) i := by
  unfold decodeBulk at h
  split at h
  · cases h
  · rename_i lo hi pk m body hstart
    cases h
    rw [afterStart_ok hstart]
    exact ⟨rfl, rfl⟩
  · cases h

theorem decodeNetwork_isRequestOf {i : Instr} {bs : List Byte} (h : decodeNetwork bs = .ok i) :
    IsRequestOf (0x24 :: bs) i := by
  unfold decodeNetwork at h
  split at h
  · cases h
  · rename_i sq sy co lo hi pk m body hstart
    cases h
    rw [afterStart_ok hstart]
    exact ⟨rfl, rfl⟩
  · cases h

theorem decodeGeneric_isRequestOf {i : Instr} {bs : List Byte} (h : decodeGeneric bs = .ok i) :
    IsRequestOf (0x25 :: bs) i := by
  unfold decodeGeneric at h
  split at h
  · cases h
  · rename_i p rest hp
    obtain ⟨hok, rfl⟩ := decodeProfile_ok hp
    split at h
    · cases h
    · rename_i l frame hl
      obtain ⟨hlok, rfl⟩ := decodeLookup_ok hl
      split at h
      · cases h
      · rename_i behind hstart
        split at h
        · rename_i hlen
          cases h
          refine ⟨?_, ?_⟩
          · simp [Instr.wf, hok, hlok, hlen]
          · simp [encode, Instr.selector, encodeOperands, afterStart_ok hstart]
        · cases h

theorem decodeOp_isRequestOf {i : Instr} {bs : List Byte} :
    ∀ {code : Nat}, decodeOp code bs = .ok i → IsRequestOf (BitVec.ofNat 8 code :: bs) i
  | 0x0, h | 0xA, h | 0xC, h | 0xD, h => by
    obtain ⟨rfl, rfl⟩ := decodeNoOperand_ok h
    exact ⟨rfl, rfl⟩
  | 0x1, h | 0x9, h => by
    obtain ⟨b, rfl, rfl⟩ := decodeByteOperand_ok h
    exact ⟨rfl, rfl⟩
  | 0x2, h | 0xB, h => by
    cases h
    exact ⟨rfl, rfl⟩
  | 0x3, h => by
    obtain ⟨bs', f0, f1, rfl, rfl⟩ := decodeVerify_ok h
    exact ⟨rfl, rfl⟩
  | 0x4, h | 0x5, h | 0x6, h => by
    obtain ⟨p, hp, rfl, rfl⟩ := decodeProfileOperand_ok h
    exact ⟨hp, rfl⟩
  | 0x7, h => decodeEncode_isRequestOf h
  | 0x8, h => decodeValidate_isRequestOf h
  | n + 14, h => by cases h

theorem decodeStateRow_isRequestOf {i : Instr} {bs : List Byte} :
    ∀ {code : Nat}, decodeStateRow code bs = .ok i → IsRequestOf (BitVec.ofNat 8 (16 + code) :: bs) i
  | 0, h | 1, h | 2, h | 3, h | 4, h => by
    obtain ⟨b, rfl, rfl⟩ := decodeByteOperand_ok h
    exact ⟨rfl, rfl⟩
  | n + 5, h => by cases h

theorem decodeFrameRow_isRequestOf {i : Instr} {bs : List Byte} :
    ∀ {code : Nat}, decodeFrameRow code bs = .ok i → IsRequestOf (BitVec.ofNat 8 (32 + code) :: bs) i
  | 0, h => decodeStandard_isRequestOf h
  | 1, h => decodeSensor_isRequestOf h
  | 2, h => decodeIpc_isRequestOf h
  | 3, h => decodeBulk_isRequestOf h
  | 4, h => decodeNetwork_isRequestOf h
  | 5, h => decodeGeneric_isRequestOf h
  | n + 6, h => by cases h

/-- Settles O7: the first byte selects a row, and what the row's decoder accepts is the encoding of an instruction of that
row. -/
theorem encodeOfDecodeIsTheRequest : Obligations.EncodeOfDecodeIsTheRequest := by
  intro r i h
  cases r with
  | nil => cases h
  | cons sel bs =>
    have hsel : sel = BitVec.ofNat 8 (16 * (sel.toNat / 16) + sel.toNat % 16) := by
      rw [Nat.div_add_mod, BitVec.ofNat_toNat, BitVec.setWidth_eq]
    unfold decode at h
    dsimp only at h
    split at h
    · rename_i hformat
      rw [hsel, hformat, Nat.mul_zero, Nat.zero_add]
      exact decodeOp_isRequestOf h
    · rename_i hformat
      rw [hsel, hformat]
      exact decodeStateRow_isRequestOf h
    · rename_i hformat
      rw [hsel, hformat]
      exact decodeFrameRow_isRequestOf h
    · cases h

/-- Settles O5: these two codes select no row of format op4. -/
theorem undefinedSelectCodesAreRefused : Obligations.UndefinedSelectCodesAreRefused := by
  intro s code bs rest hcode hq
  rcases hcode with rfl | rfl
  · exact Machine.step_of_decode_error hq (decode_op 0xE bs)
  · exact Machine.step_of_decode_error hq (decode_op 0xF bs)

/-- Settles O8: each word is evaluated. -/
theorem wordsOfTheTableDecode : Obligations.WordsOfTheTableDecode := by
  unfold Obligations.WordsOfTheTableDecode
  decide

end Sys2Proof
end

section
/-!
SUPPORT. The layout of a frame (30_encoding.md R90 to R104): where the encoder puts every part; and the refusal of a
configuration that has no layout (R107).
-/

namespace Sys2Proof.Machine

/-! ### Refusal of an ill-formed configuration (R107, R141) -/

theorem withDecoder_not_wf {p : Profile} (h : ¬ p.WF) (l : Lookup) (k : Answer) :
    withDecoder p l k = .refused .illFormedConfiguration := withProfile_not_wf h _

/-- Settles O20: every one of these operations passes the admission check of its configuration, which an ill-formed one
fails. -/
theorem illFormedConfigurationIsRefused : Obligations.IllFormedConfigurationIsRefused := by
  intro s p hp
  refine ⟨?operands, fun hconn b => ?step, fun hconn => ?next⟩
  case operands =>
    rintro i (rfl | rfl | rfl | ⟨m, payload, sq, sy, co, pk, rfl⟩ | ⟨buffer, l, rfl⟩ | ⟨l, fields, body, rfl⟩)
    · exact withProfile_not_wf hp _
    · exact withProfile_not_wf hp _
    · exact withProfile_not_wf hp _
    · exact withProfile_not_wf hp _
    · exact withDecoder_not_wf hp _ _
    · exact withDecoder_not_wf hp _ _
  case step =>
    subst hconn
    exact withDecoder_not_wf hp _ _
  case next =>
    subst hconn
    exact withDecoder_not_wf hp _ _

/-! ### Where the encoder puts the header fields (R90 to R93, R101) -/

@[simp] theorem optByte_true (b : Byte) : optByte true b = [b] := rfl

theorem lengthBytes_eq_cons (p : Profile) (n : Nat) :
    lengthBytes p n = BitVec.ofNat 8 n :: if p.lengthWidth = 2 then [BitVec.ofNat 8 (n / 256)] else [] := by
  unfold lengthBytes
  split <;> rfl

/-- The length field has `LW` bytes (R92). -/
theorem lengthField_length {p : Profile} (hp : p.WF) (n : Nat) :
    (if p.hasLength then lengthBytes p n else []).length = p.lenBytes := by
  rw [hp.lenBytes_eq]
  split
  · exact lengthBytes_length p n
  · rfl

theorem getElem?_of_concat_prefix {pre f : List Byte} {b : Byte} {k : Nat} (h : pre ++ [b] <+: f) (hk : pre.length = k) :
    f[k]? = some b := by
  obtain ⟨post, rfl⟩ := h
  simp [← hk]

section FrameOpensWithHeader
variable {p : Profile} {n : Nat} {m sq sy co pk : Byte} {f : List Byte}
  (hp : p.WF) (hf : headerBytes p n m sq sy co pk <+: f)
include hf

theorem frame_start1_at (h : 1 ≤ p.nStart) : f[0]? = some p.start1 :=
  getElem?_of_concat_prefix (pre := []) (.trans (by simp [headerBytes, Profile.startBytes, h]) hf) rfl

theorem frame_start2_at (h : p.nStart = 2) : f[1]? = some p.start2 :=
  getElem?_of_concat_prefix (pre := [p.start1]) (.trans (by simp [headerBytes, Profile.startBytes, h]) hf) rfl

include hp

theorem frame_seq_at (h : p.hasSequence = true) : f[offSeq p]? = some sq :=
  getElem?_of_concat_prefix (pre := p.startBytes) (.trans (by simp [headerBytes, h]) hf) hp.startBytes_length

theorem frame_sysId_at (h : p.hasSystemId = true) : f[offSys p]? = some sy :=
  getElem?_of_concat_prefix (pre := p.startBytes ++ optByte p.hasSequence sq) (.trans (by simp [headerBytes, h]) hf)
    (by simp [hp.startBytes_length, offSys])

theorem frame_compId_at (h : p.hasComponentId = true) : f[offComp p]? = some co :=
  getElem?_of_concat_prefix (pre := p.startBytes ++ optByte p.hasSequence sq ++ optByte p.hasSystemId sy)
    (.trans (by simp [headerBytes, h]) hf) (by simp [hp.startBytes_length, offComp, Nat.add_assoc])

theorem frame_lengthLow_at (h : p.hasLength = true) : f[offLen p]? = some (BitVec.ofNat 8 n) :=
  getElem?_of_concat_prefix
    (pre := p.startBytes ++ optByte p.hasSequence sq ++ optByte p.hasSystemId sy ++ optByte p.hasComponentId co)
    (.trans (by simp [headerBytes, h, lengthBytes_eq_cons]) hf) (by simp [hp.startBytes_length, offLen, Nat.add_assoc])

theorem frame_lengthHigh_at (h : p.hasLength = true) (hw : p.lengthWidth = 2) :
    f[offLen p + 1]? = some (BitVec.ofNat 8 (n / 256)) :=
  getElem?_of_concat_prefix
    (pre := p.startBytes ++ optByte p.hasSequence sq ++ optByte p.hasSystemId sy ++ optByte p.hasComponentId co ++
      [BitVec.ofNat 8 n])
    (.trans (by simp [headerBytes, h, lengthBytes_eq_cons, hw]) hf)
    (by simp [hp.startBytes_length, offLen, Nat.add_assoc])

theorem frame_pkgId_at (h : p.hasPackageId = true) : f[offPkg p]? = some pk :=
  getElem?_of_concat_prefix
    (pre := p.startBytes ++ optByte p.hasSequence sq ++ optByte p.hasSystemId sy ++ optByte p.hasComponentId co ++
      if p.hasLength then lengthBytes p n else [])
    (.trans (by simp [headerBytes, h]) hf)
    (by simp only [List.length_append, hp.startBytes_length, optByte_length, lengthField_length hp, offPkg, offLen])

theorem frame_msgId_at : f[offMsg p]? = some m := by
  refine getElem?_of_concat_prefix hf ?_
  simp only [List.length_append, hp.startBytes_length, optByte_length, lengthField_length hp, offMsg, offLen]

end FrameOpensWithHeader

/-! ### The frame behind its header (R92, R104, R134) -/

/-- The checksummed range of a frame is what precedes its footer, without the start bytes. -/
theorem slice_append_length (s t : List Byte) (a : Nat) : slice (s ++ t) a s.length = s.drop a := by
  rw [slice_append_left (Nat.le_refl _), slice, List.take_of_length_le (by simp)]

theorem footerBytes_length {p : Profile} (hp : p.WF) (body : List Byte) : (footerBytes p body).length = p.footerSize := by
  unfold footerBytes
  rcases hp.footer_cases with h | h <;> simp [h]

theorem frameBody_length {p : Profile} (hp : p.WF) (m : Byte) (payload : List Byte) (sq sy co pk : Byte) :
    (frameBody p m payload sq sy co pk).length = p.headerSize + payload.length := by
  rw [frameBody, List.length_append, headerBytes_length hp]

theorem frame_eq_header_append (p : Profile) (m : Byte) (payload : List Byte) (sq sy co pk : Byte) :
    frameBody p m payload sq sy co pk ++ footerBytes p (frameBody p m payload sq sy co pk) =
      headerBytes p payload.length m sq sy co pk ++ (payload ++ footerBytes p (frameBody p m payload sq sy co pk)) :=
  List.append_assoc ..

/-- The operands ENC.ENCODE builds a frame for: the length field and the capacity allow the payload (R151). -/
theorem exec_encEncode_ok {p : Profile} {payload : List Byte} (hp : p.WF)
    (hlen : p.hasLength = true → payload.length ≤ if p.lengthWidth = 1 then 255 else 65535)
    (hcap : p.hasLength = false → payload.length ≤ Config.payloadCap) (m sq sy co pk : Byte) (s : State) :
    exec (.encEncode p m payload sq sy co pk) s = .next { s with
      result := .frame (frameBody p m payload sq sy co pk ++ footerBytes p (frameBody p m payload sq sy co pk)) } := by
  have hadmitted : p.hasLength = true ∨ withinPayloadCap payload.length = true := by
    rw [withinPayloadCap_iff]
    cases h : p.hasLength with
    | true => exact .inl rfl
    | false => exact .inr (hcap h)
  have hfits : payloadTooLarge p payload.length = false := by
    rw [← Bool.not_eq_true, payloadTooLarge_iff]
    exact fun ⟨h, hlt⟩ => absurd (hlen h) (by omega)
  have hframe := (encodeFrame_ok_iff p m payload sq sy co pk _).mpr ⟨hfits, rfl⟩
  rw [exec_encEncode, execEncEncode, withProfile_wf hp, if_pos hadmitted, hframe, encodeResult, complete_eq]

/-- Settles O21: the frame is the header, the payload and the footer, so it opens with the header, and what precedes the
footer is the range the footer is the checksum of. -/
theorem encodeLaysOutTheFrame : Obligations.EncodeLaysOutTheFrame := by
  intro s p m sq sy co pk payload hp hlen hcap
  have hbody := frameBody_length hp m payload sq sy co pk
  have hheader := headerBytes_length hp payload.length m sq sy co pk
  have hopens : headerBytes p payload.length m sq sy co pk <+:
      frameBody p m payload sq sy co pk ++ footerBytes p (frameBody p m payload sq sy co pk) :=
    ⟨_, (frame_eq_header_append ..).symm⟩
  refine ⟨_, exec_encEncode_ok hp hlen hcap m sq sy co pk s, ?size, frame_start1_at hopens, frame_start2_at hopens,
    frame_seq_at hp hopens, frame_sysId_at hp hopens, frame_compId_at hp hopens, frame_lengthLow_at hp hopens,
    frame_lengthHigh_at hp hopens, frame_pkgId_at hp hopens, ?msg, ?content, fun hfooter => ?footer⟩
  case size => rw [List.length_append, hbody, footerBytes_length hp]
  case msg => exact offMsg_eq p ▸ frame_msgId_at hp hopens
  case content => rw [frame_eq_header_append, ← hheader, slice_append_right]
  case footer =>
    rw [← hbody, slice_append_length]
    exact ⟨_, _, by simp [footerBytes, hfooter], by simp [footerBytes, hfooter], isChecksum_fletcher _⟩

end Sys2Proof.Machine
end

section
/-!
SUPPORT. The frames of the table's rows (30_encoding.md R94 to R98, R114): what the one-shot decoder reads from a complete
header and the bytes behind it, for the canonical headers and for every header the encoder builds.
-/

namespace Sys2Proof.Machine

/-! ### A complete header and the bytes behind it (R160 to R169) -/

/-- A complete header of the profile, with this msg_id and this package id (0 for a profile without one). -/
structure IsHeader (p : Profile) (hdr : List Byte) (m k : Byte) : Prop where
  wf     : p.WF
  length : hdr.length = p.headerSize
  start  : hdr.take p.nStart = p.startBytes
  msg    : byteAt hdr (offMsg p) = m
  pkg    : pkgIdOf p hdr = k

/-- The frame behind a header that declares `n` payload bytes is there, and its footer, where the profile has one, is the
checksum of the header fields and the payload (R134, R135). -/
abbrev FrameBehind (p : Profile) (hdr body : List Byte) (n : Nat) : Prop :=
  n + p.footerSize ≤ body.length ∧
    (p.footerSize = 2 → isChecksum (hdr.drop p.nStart ++ body.take n) (byteAt body n) (byteAt body (n + 1)))

theorem frameBehind_footer_iff {p : Profile} (hf : p.footerSize = 2) (hdr payload tail : List Byte) (f0 f1 : Byte) :
    FrameBehind p hdr (payload ++ f0 :: f1 :: tail) payload.length ↔ isChecksum (hdr.drop p.nStart ++ payload) f0 f1 := by
  have h0 : byteAt (payload ++ f0 :: f1 :: tail) payload.length = f0 := byteAt_of_getElem? (by simp)
  have h1 : byteAt (payload ++ f0 :: f1 :: tail) (payload.length + 1) = f1 := byteAt_of_getElem? (by simp)
  simp [FrameBehind, hf, h0, h1]

section Header
variable {p : Profile} {hdr : List Byte} {m k : Byte} (h : IsHeader p hdr m k) (body : List Byte)
include h

theorem IsHeader.byteAt_append {i : Nat} (hi : i < p.headerSize) : byteAt (hdr ++ body) i = byteAt hdr i :=
  byteAt_append_left (by rw [h.length]; exact hi)

theorem IsHeader.byteAt_body (i : Nat) : byteAt (hdr ++ body) (p.headerSize + i) = byteAt body i := by
  rw [byteAt_append_right (by rw [h.length]; omega), h.length, Nat.add_sub_cancel_left]

theorem IsHeader.nStart_le : p.nStart ≤ hdr.length := by
  have := h.wf.headerSize_eq
  have := h.length
  omega

theorem IsHeader.startBytesMatch_append : startBytesMatch p (hdr ++ body) = true := by
  have hle := h.nStart_le
  rw [startBytesMatch_iff h.wf (by rw [List.length_append]; omega), take_append_of_header hle, h.start]

theorem IsHeader.payloadLength_append (l : Lookup) : payloadLength p l (hdr ++ body) = payloadLength p l hdr :=
  payloadLength_congr h.wf l fun _ => h.byteAt_append body

theorem IsHeader.msg_append : byteAt (hdr ++ body) (offMsg p) = m := by
  have hpos := p.headerSize_pos
  rw [h.byteAt_append body (by rw [offMsg_eq]; omega), h.msg]

theorem IsHeader.pkg_append : pkgIdOf p (hdr ++ body) = k := by
  rw [← h.pkg]
  unfold pkgIdOf
  split
  · rename_i hpkg
    refine h.byteAt_append body ?_
    simp only [offPkg, offLen, Profile.headerSize, hpkg]
    omega
  · rfl

theorem IsHeader.slice_payload (n : Nat) : slice (hdr ++ body) p.headerSize (p.headerSize + n) = body.take n := by
  simp [slice, ← h.length]

theorem IsHeader.slice_checksummed (n : Nat) :
    slice (hdr ++ body) p.nStart (p.headerSize + n) = hdr.drop p.nStart ++ body.take n := by
  have hle := h.nStart_le
  have hrest : hdr.length + n - p.nStart - (hdr.length - p.nStart) = n := by omega
  rw [slice, List.drop_append_of_le_length hle, ← h.length, List.take_append, List.length_drop, hrest,
    List.take_of_length_le (by rw [List.length_drop]; omega)]

/-- A frame is its start bytes, its header fields and what is behind the header (R90). -/
theorem IsHeader.parts :
    p.startBytes ++ (slice (hdr ++ body) p.nStart p.headerSize ++ (hdr ++ body).drop p.headerSize) = hdr ++ body := by
  rw [← h.start, ← h.length, slice_append_length, List.drop_left, ← List.append_assoc, List.take_append_drop]

/-- The checksum test of the one-shot decoder on a header and the bytes behind it (R134, R135). -/
theorem IsHeader.checksumOk_iff (hf : p.footerSize = 2) (n : Nat) :
    checksumOk p (hdr ++ body) (totalSize p n) = true ↔
      isChecksum (hdr.drop p.nStart ++ body.take n) (byteAt body n) (byteAt body (n + 1)) := by
  have htotal : totalSize p n = p.headerSize + (n + 2) := by rw [totalSize, Profile.overhead, hf]; omega
  have hrange : totalSize p n - 2 = p.headerSize + n := by omega
  have hlast : totalSize p n - 1 = p.headerSize + (n + 1) := by omega
  rw [checksumOk, checksummedRange, hf, hrange, hlast, h.slice_checksummed, h.byteAt_body, h.byteAt_body, isChecksum_iff]

/-- A header whose payload length is unknown is `INVALID`, whatever follows it (R164). -/
theorem IsHeader.validateResult_none {l : Lookup} (hn : payloadLength p l hdr = none) :
    validateResult p (hdr ++ body) l = none := by
  rw [validateResult_none_iff]
  intro q hq
  obtain ⟨-, -, n, hn', -⟩ := (validate_ok_iff ..).mp hq
  rw [h.payloadLength_append, hn] at hn'
  cases hn'

/-- A header with its payload length is `VALID` exactly where the frame it declares is behind it (R160 to R169). -/
theorem IsHeader.validateResult_some {l : Lookup} {n : Nat} (hn : payloadLength p l hdr = some n) :
    validateResult p (hdr ++ body) l =
      if FrameBehind p hdr body n then some (validFrame m k (body.take n)) else none := by
  have hsize : p.overhead ≤ (hdr ++ body).length ∧ totalSize p n ≤ (hdr ++ body).length ↔
      n + p.footerSize ≤ body.length := by
    rw [List.length_append, h.length, totalSize, Profile.overhead]
    omega
  have hchecksum : (0 < p.footerSize → checksumOk p (hdr ++ body) (totalSize p n) = true) ↔
      (p.footerSize = 2 → isChecksum (hdr.drop p.nStart ++ body.take n) (byteAt body n) (byteAt body (n + 1))) := by
    rcases h.wf.footer_cases with hf | hf
    · simp [hf]
    · simp only [h.checksumOk_iff body hf, hf, Nat.zero_lt_two]
  ext q
  rw [validateResult_some_iff, validate_ok_iff, Option.ite_none_right_eq_some, FrameBehind, ← hsize, ← hchecksum]
  simp only [h.startBytesMatch_append, h.payloadLength_append, hn, h.msg_append, h.pkg_append, h.slice_payload,
    Option.some.injEq, exists_eq_left', true_and, and_assoc, eq_comm]

end Header

/-! ### The frame rows (R94 to R98) -/

/-- A frame of a profile with a length field and a footer: `INVALID` where the bytes behind the header are too few, else decided
by the checksum of the header fields and the payload (R134, R160). -/
theorem IsHeader.validateOp_footered {p : Profile} {hdr : List Byte} {m k : Byte} {n : Nat} (h : IsHeader p hdr m k)
    (hlen : p.hasLength = true) (hfooter : p.footerSize = 2) (hn : decodeLen p hdr = n) (s : State) (body : List Byte) :
    ∃ r : Option Parsed, validateOp p (hdr ++ body) none s = .next { s with result := .parse r } ∧
      (body.length < n + 2 → r = none) ∧
      ∀ (payload tail : List Byte) (f0 f1 : Byte), body = payload ++ f0 :: f1 :: tail → payload.length = n →
        r = if isChecksum (hdr.drop p.nStart ++ payload) f0 f1
            then some ⟨zext32 m, k, payload, BitVec.ofNat 32 payload.length⟩ else none := by
  have hpl : payloadLength p [] hdr = some n := by rw [payloadLength, if_pos hlen, hn]
  refine ⟨_, validateOp_ready s h.wf (.inl hlen), fun hshort => ?short, fun payload tail f0 f1 hbody hpay => ?whole⟩
  case short =>
    rw [Option.getD_none, h.validateResult_some body hpl, if_neg]
    rintro ⟨hsize, -⟩
    omega
  case whole =>
    subst hbody hpay
    rw [Option.getD_none, h.validateResult_some _ hpl]
    simp only [frameBehind_footer_iff hfooter, List.take_left, validFrame]

theorem standard_isHeader (len m : Byte) : IsHeader Profile.standard (Profile.standard.startBytes ++ [len, m]) m 0 :=
  ⟨by decide, rfl, rfl, rfl, rfl⟩

theorem sensor_isHeader (m : Byte) : IsHeader Profile.sensor (Profile.sensor.startBytes ++ [m]) m 0 :=
  ⟨by decide, rfl, rfl, rfl, rfl⟩

theorem ipc_isHeader (m : Byte) : IsHeader Profile.ipc (Profile.ipc.startBytes ++ [m]) m 0 :=
  ⟨by decide, rfl, rfl, rfl, rfl⟩

theorem bulk_isHeader (lo hi pk m : Byte) : IsHeader Profile.bulk (Profile.bulk.startBytes ++ [lo, hi, pk, m]) m pk :=
  ⟨by decide, rfl, rfl, rfl, rfl⟩

theorem network_isHeader (sq sy co lo hi pk m : Byte) :
    IsHeader Profile.network (Profile.network.startBytes ++ [sq, sy, co, lo, hi, pk, m]) m pk :=
  ⟨by decide, rfl, rfl, rfl, rfl⟩

/-- Settles O31: length and msg_id are the header of Standard behind its start bytes. -/
theorem standardFrameIsRecognised : Obligations.StandardFrameIsRecognised :=
  fun s len m body => (standard_isHeader len m).validateOp_footered rfl rfl rfl s body

/-- Settles O32: the two length bytes, package id and msg_id are the header of Bulk behind its start bytes. -/
theorem bulkFrameIsRecognised : Obligations.BulkFrameIsRecognised :=
  fun s lo hi pk m body => (bulk_isHeader lo hi pk m).validateOp_footered rfl rfl rfl s body

/-- Settles O33: the header of Network has three more bytes, of which the result reads none. -/
theorem networkFrameIsRecognised : Obligations.NetworkFrameIsRecognised :=
  fun s sq sy co lo hi pk m body => (network_isHeader sq sy co lo hi pk m).validateOp_footered rfl rfl rfl s body

/-- What the one-shot decoder answers for a frame of a profile without length field and footer (R95, R96, R164). -/
def lengthlessResult (l : Lookup) (m : Byte) (body : List Byte) : Option Parsed :=
  match lookupLength l m with
  | none => none
  | some n => if n ≤ body.length then some ⟨zext32 m, 0, body.take n, BitVec.ofNat 32 n⟩ else none

theorem IsHeader.validateResult_lengthless {p : Profile} {hdr : List Byte} {m : Byte} (h : IsHeader p hdr m 0)
    (hlen : p.hasLength = false) (hfooter : p.footerSize = 0) (l : Lookup) (body : List Byte) :
    validateResult p (hdr ++ body) l = lengthlessResult l m body := by
  have hpl : payloadLength p l hdr = lookupLength l m := by rw [payloadLength, hlen, if_neg Bool.false_ne_true, h.msg]
  unfold lengthlessResult
  cases hn : lookupLength l m with
  | none => exact h.validateResult_none body (hpl.trans hn)
  | some n =>
    rw [h.validateResult_some body (hpl.trans hn)]
    by_cases hsize : n ≤ body.length
    · simp [FrameBehind, hfooter, hsize, validFrame]
    · simp [FrameBehind, hfooter, hsize]

/-- Settles O34: both rows have the same answer, since both headers end in the msg_id and have no other field. -/
theorem lengthlessFramesAreRecognised : Obligations.LengthlessFramesAreRecognised := by
  intro s l m body hl
  have hsensor := (sensor_isHeader m).validateResult_lengthless rfl rfl (l.getD []) body
  have hipc := (ipc_isHeader m).validateResult_lengthless rfl rfl (l.getD []) body
  refine ⟨lengthlessResult (l.getD []) m body, ?sensor, ?ipc, fun hn => ?unknown, fun n hn => ?known⟩
  case sensor => exact hsensor ▸ validateOp_ready s (sensor_isHeader m).wf (.inr hl)
  case ipc => exact hipc ▸ validateOp_ready s (ipc_isHeader m).wf (.inr hl)
  case unknown => rw [lengthlessResult, hn]
  case known => rw [lengthlessResult, hn]

/-! ### What the one-shot decoder reads from a frame ENC.ENCODE built (R155) -/

theorem headerBytes_isHeader {p : Profile} (hp : p.WF) (n : Nat) (m sq sy co pk : Byte) :
    IsHeader p (headerBytes p n m sq sy co pk) m (if p.hasPackageId then pk else 0) where
  wf := hp
  length := headerBytes_length hp n m sq sy co pk
  start := by
    rw [← hp.startBytes_length]
    simp [headerBytes]
  msg := byteAt_of_getElem? (frame_msgId_at hp List.prefix_rfl)
  pkg := by
    unfold pkgIdOf
    split
    · exact byteAt_of_getElem? (frame_pkgId_at hp List.prefix_rfl ‹_›)
    · rfl

/-- The length field of an encoded header reads as the length it was built for, where it can represent it (R100, R101). -/
theorem decodeLen_headerBytes {p : Profile} (hp : p.WF) {n : Nat} (hlen : p.hasLength = true)
    (hn : payloadTooLarge p n = false) (m sq sy co pk : Byte) : decodeLen p (headerBytes p n m sq sy co pk) = n := by
  have hfits : n ≤ if p.lengthWidth = 1 then 255 else 65535 := by
    rw [← Bool.not_eq_true, payloadTooLarge_iff] at hn
    exact Nat.not_lt.mp fun hlt => hn ⟨hlen, hlt⟩
  have hlow := byteAt_of_getElem? (frame_lengthLow_at hp (List.prefix_refl (headerBytes p n m sq sy co pk)) hlen)
  unfold decodeLen
  rw [hlow]
  rcases hp.2.1 with h | hw | hw
  · rw [hlen] at h
    cases h
  · rw [if_pos hw] at hfits
    rw [hw, if_neg (by decide), BitVec.toNat_ofNat]
    omega
  · rw [hw, if_neg (by decide)] at hfits
    have hhigh := byteAt_of_getElem? (frame_lengthHigh_at hp (List.prefix_refl (headerBytes p n m sq sy co pk)) hlen hw)
    rw [if_pos hw, hhigh, BitVec.toNat_ofNat, BitVec.toNat_ofNat]
    omega

theorem payloadLength_headerBytes {p : Profile} (hp : p.WF) {l : Lookup} {n : Nat} {m : Byte}
    (hn : payloadTooLarge p n = false) (hl : p.hasLength = false → lookupLength l m = some n) (sq sy co pk : Byte) :
    payloadLength p l (headerBytes p n m sq sy co pk) = some n := by
  unfold payloadLength
  cases h : p.hasLength with
  | true => rw [if_pos rfl, decodeLen_headerBytes hp h hn]
  | false => rw [if_neg Bool.false_ne_true, (headerBytes_isHeader hp n m sq sy co pk).msg, hl h]

/-- The footer of an encoded frame is the one the decoder expects (R104, R134). -/
theorem frameBehind_encoded {p : Profile} (hp : p.WF) (m : Byte) (payload : List Byte) (sq sy co pk : Byte) :
    FrameBehind p (headerBytes p payload.length m sq sy co pk)
      (payload ++ footerBytes p (frameBody p m payload sq sy co pk)) payload.length := by
  rcases hp.footer_cases with hf | hf
  · simp [FrameBehind, hf]
  · have hstart := (headerBytes_isHeader hp payload.length m sq sy co pk).nStart_le
    rw [footerBytes, if_pos (by omega), frameBehind_footer_iff hf, frameBody, ← List.drop_append_of_le_length hstart]
    exact isChecksum_fletcher _

/-- The one-shot decoder recovers the message of an encoded frame (R155). -/
theorem validateResult_encodeFrame {p : Profile} (hp : p.WF) {l : Lookup} {m sq sy co pk : Byte} {payload f : List Byte}
    (hf : encodeFrame p m payload sq sy co pk = .ok f)
    (hl : p.hasLength = false → lookupLength l m = some payload.length) :
    validateResult p f l =
      some ⟨zext32 m, if p.hasPackageId then pk else 0, payload, BitVec.ofNat 32 payload.length⟩ := by
  obtain ⟨hn, rfl⟩ := (encodeFrame_ok_iff ..).mp hf
  have hheader := headerBytes_isHeader hp payload.length m sq sy co pk
  have hpl := payloadLength_headerBytes hp hn hl sq sy co pk
  rw [frame_eq_header_append, hheader.validateResult_some _ hpl, if_pos (frameBehind_encoded hp m payload sq sy co pk),
    List.take_left, validFrame]

/-- Where ENC.ENCODE returns a frame, it is the one `encodeFrame` builds, of a well-formed profile. -/
theorem exec_encEncode_frame {p : Profile} {m sq sy co pk : Byte} {payload f : List Byte} {s t : State}
    (h : exec (.encEncode p m payload sq sy co pk) s = .next t) (hf : t.result = .frame f) :
    p.WF ∧ encodeFrame p m payload sq sy co pk = .ok f := by
  rw [exec_encEncode, execEncEncode] at h
  obtain ⟨hp, h⟩ := withProfile_next h
  refine ⟨hp, ?_⟩
  split at h
  · cases h
    cases he : encodeFrame p m payload sq sy co pk with
    | ok g =>
      rw [he] at hf
      cases hf
      rfl
    | error e =>
      rw [he] at hf
      cases hf
  · cases h

/-- Settles O35: the row and DEC.VALIDATE are one validation of start bytes, header fields and body together, and these
together are the encoded frame that was cut. -/
theorem genericFrameIsRecognised : Obligations.GenericFrameIsRecognised := by
  intro s p l fields body hready
  obtain ⟨hp, hl⟩ := hready
  refine ⟨_, validateOp_ready s hp hl, validateOp_ready s hp hl, ?_⟩
  rintro u v m sq sy co pk payload f henc hv hlookup rfl rfl
  obtain ⟨-, hf⟩ := exec_encEncode_frame henc hv
  have hparts : p.startBytes ++ (slice f p.nStart p.headerSize ++ f.drop p.headerSize) = f := by
    obtain ⟨-, rfl⟩ := (encodeFrame_ok_iff ..).mp hf
    rw [frame_eq_header_append]
    exact (headerBytes_isHeader hp payload.length m sq sy co pk).parts _
  rw [hparts, validateResult_encodeFrame hp hf hlookup]

end Sys2Proof.Machine
end

section
/-!
SUPPORT. The checksum engine (40_checksum.md R130 to R138): what its operations leave, and which changed bytes a checksum
detects, in a range, in a footer and in a whole frame.
-/

namespace Sys2Proof.Machine

/-! ### The operations of CHK (R131 to R135) -/

/-- Two footer bytes match a range exactly where both are its recomputed pair (R135). -/
theorem footerMatches_iff (bs : List Byte) (f0 f1 : Byte) :
    footerMatches bs f0 f1 = true ↔ f0 = (fletcher bs).c0 ∧ f1 = (fletcher bs).c1 := by
  rw [footerMatches, Bool.and_eq_true, beq_iff_eq, beq_iff_eq, eq_comm, @eq_comm _ f1]

/-- A run of CHK.UPDATE operations folds the bytes into the registers (R132). -/
theorem performAll_chkUpdate (bs : List Byte) : ∀ s : State, ∃ (t : State) (rs : List Result),
    performAll (bs.map .chkUpdate) s = some (t, rs) ∧ t.chk = bs.foldl fletcherByte s.chk := by
  induction bs with
  | nil => exact fun s => ⟨s, [], rfl, rfl⟩
  | cons b bs ih =>
    intro s
    obtain ⟨t, rs, hrun, hchk⟩ := ih { s with chk := fletcherByte s.chk b, result := .none }
    refine ⟨t, .none :: rs, ?_, hchk⟩
    simp only [List.map_cons, performAll, exec_chkUpdate, execChkUpdate, complete_eq, hrun, Option.map_some]

/-- Both accumulators are still 0 after a leading zero byte (R137 (c)). -/
theorem fletcher_zeros_append (n : Nat) (bs : List Byte) : fletcher (List.replicate n 0 ++ bs) = fletcher bs := by
  have hzero : fletcherByte ⟨0, 0⟩ 0 = ⟨0, 0⟩ := rfl
  induction n with
  | zero => rfl
  | succ n ih => rw [List.replicate_succ, List.cons_append, fletcher, List.foldl_cons, hzero, ← fletcher, ih]

/-- Settles O9: the operation clears the registers by definition. -/
theorem chkInitClearsTheAccumulators : Obligations.ChkInitClearsTheAccumulators := fun _ => rfl

/-- Settles O10: addition of bytes is addition modulo 256. -/
theorem chkUpdateAddsTheByteThenTheNewSum : Obligations.ChkUpdateAddsTheByteThenTheNewSum :=
  fun s b => ⟨s.chk.c0 + b, s.chk.c1 + (s.chk.c0 + b), rfl, BitVec.toNat_add .., BitVec.toNat_add ..⟩

/-- Settles O11: the registers take `fletcher`, which is the two sums. -/
theorem chkComputeReturnsTheTwoSums : Obligations.ChkComputeReturnsTheTwoSums :=
  fun _ bs => ⟨(fletcher bs).c0, (fletcher bs).c1, rfl, isChecksum_fletcher bs⟩

/-- Settles O12: the registers take `fletcher`, which both footer bytes are compared with. -/
theorem chkVerifyRequiresBothBytes : Obligations.ChkVerifyRequiresBothBytes :=
  fun _ bs f0 f1 => ⟨(fletcher bs).c0, (fletcher bs).c1, footerMatches bs f0 f1, rfl, isChecksum_fletcher bs,
    footerMatches_iff bs f0 f1⟩

/-- Settles O13: `fletcher` is the fold of the update from cleared registers. -/
theorem initThenUpdatesAgreeWithCompute : Obligations.InitThenUpdatesAgreeWithCompute := by
  intro s bs
  obtain ⟨t, rs, hrun, hchk⟩ := performAll_chkUpdate bs { s with chk := ⟨0, 0⟩, result := .none }
  refine ⟨t, _, .none :: rs, ?_, rfl, hchk⟩
  simp only [performAll, exec_chkInit, execChkInit, complete_eq, hrun, Option.map_some]

/-- Settles O15: CHK.COMPUTE reads the range through `fletcher` alone. -/
theorem leadingZerosAreInvisible : Obligations.LeadingZerosAreInvisible := by
  intro s n bs
  simp only [exec_chkCompute, execChkCompute, fletcher_zeros_append]

/-! ### A changed byte of a range or of its footer (R137 (a), (b)) -/

/-- One changed byte changes the sum that `c0` is, so a footer cannot match both ranges (R137 (a)). -/
theorem footerMatches_changed_byte {xs ys : List Byte} {b b' f0 f1 : Byte} (hne : b ≠ b')
    (h : footerMatches (xs ++ b :: ys) f0 f1 = true) : footerMatches (xs ++ b' :: ys) f0 f1 = false := by
  rw [← Bool.not_eq_true, ← isChecksum_iff]
  rintro ⟨hsum', -⟩
  obtain ⟨hsum, -⟩ := (isChecksum_iff ..).mpr h
  have hb := b.isLt
  have hb' := b'.isLt
  rw [byteSum_append, byteSum_cons] at hsum hsum'
  exact hne (BitVec.eq_of_toNat_eq (by omega))

/-- The same, with the changed byte at an index of the range. -/
theorem footerMatches_set {bs : List Byte} {k : Nat} {b f0 f1 : Byte} (hk : k < bs.length) (hne : bs[k]? ≠ some b)
    (h : footerMatches bs f0 f1 = true) : footerMatches (bs.set k b) f0 f1 = false := by
  rw [List.getElem?_eq_getElem hk, ne_eq, Option.some.injEq] at hne
  rw [List.set_eq_take_append_cons_drop, if_pos hk]
  refine footerMatches_changed_byte hne ?_
  rwa [List.getElem_cons_drop, List.take_append_drop]

/-- Settles O14: the footer would have to match both ranges. -/
theorem verifyDetectsAChangedByte : Obligations.VerifyDetectsAChangedByte := by
  intro s t xs ys b b' f0 f1 hne hexec hres
  cases hexec
  have hmatch : footerMatches (xs ++ b :: ys) f0 f1 = true := Result.verified.inj hres
  exact ⟨_, rfl, congrArg Result.verified (footerMatches_changed_byte hne hmatch)⟩

/-! ### A changed byte of a frame (R138) -/

theorem byteAt_set_ne {s : List Byte} {k i : Nat} (h : k ≠ i) (b : Byte) : byteAt (s.set k b) i = byteAt s i := by
  simp [byteAt, List.getD, List.getElem?_set_ne h]

theorem byteAt_set_self {s : List Byte} {k : Nat} (h : k < s.length) (b : Byte) : byteAt (s.set k b) k = b :=
  byteAt_of_getElem? (List.getElem?_set_self h)

theorem slice_set {s : List Byte} {k i : Nat} (h : i ≤ k) (b : Byte) (j : Nat) :
    slice (s.set k b) i j = (slice s i j).set (k - i) b := by
  rw [slice, List.drop_set, if_neg (by omega), List.take_set, slice]

/-- The length a frame declares is read from its length field, or for a lengthless profile with its msg_id (R106, R164). -/
theorem payloadLength_set {p : Profile} (hp : p.WF) (l : Lookup) (s : List Byte) {k : Nat} (b : Byte)
    (hlen : p.hasLength = true → k < offLen p ∨ offLen p + p.lengthWidth ≤ k)
    (hmsg : p.hasLength = false → k ≠ p.headerSize - 1) : payloadLength p l (s.set k b) = payloadLength p l s := by
  unfold payloadLength
  cases hl : p.hasLength with
  | false => simp only [offMsg_eq, byteAt_set_ne (hmsg hl), Bool.false_eq_true, if_false]
  | true =>
    have hk := hlen hl
    have hw : p.lengthWidth = 1 ∨ p.lengthWidth = 2 := hp.2.1.resolve_left (by rw [hl]; decide)
    have hlow : byteAt (s.set k b) (offLen p) = byteAt s (offLen p) := byteAt_set_ne (by omega) b
    simp only [decodeLen, hlow, if_true]
    split
    · rw [byteAt_set_ne (by omega)]
    · rfl

/-- A changed start byte no longer matches (R162). -/
theorem startBytesMatch_set {p : Profile} (hp : p.WF) {s : List Byte} {k : Nat} {b : Byte} (hs : p.nStart ≤ s.length)
    (hk : k < p.nStart) (hne : s[k]? ≠ some b) (h : startBytesMatch p s = true) : startBytesMatch p (s.set k b) = false := by
  rw [← Bool.not_eq_true, startBytesMatch_iff hp (by rwa [List.length_set]),
    ← (startBytesMatch_iff hp hs).mp h]
  intro hsame
  have hbyte : ((s.set k b).take p.nStart)[k]? = some b := by
    rw [List.getElem?_take_of_lt hk, List.getElem?_set_self (by omega)]
  rw [hsame, List.getElem?_take_of_lt hk] at hbyte
  exact hne hbyte

/-- A changed byte behind the start bytes is one of the checksummed range or one of the footer (R134, R137 (a), (b)). -/
theorem checksumOk_set {p : Profile} (hf : p.footerSize = 2) {s : List Byte} {k total : Nat} {b : Byte}
    (hstart : p.nStart ≤ k) (hk : k < total) (htotal : 2 ≤ total) (hs : total ≤ s.length) (hne : s[k]? ≠ some b)
    (h : checksumOk p s total = true) : checksumOk p (s.set k b) total = false := by
  have hbyte : byteAt s k ≠ b := fun heq => hne (heq ▸ getElem?_of_byteAt (by omega))
  have hself := byteAt_set_self (show k < s.length by omega) b
  simp only [checksumOk, checksummedRange, hf, slice_set hstart] at h ⊢
  have hrange : (slice s p.nStart (total - 2)).length = total - 2 - p.nStart := slice_length (by omega)
  rcases Nat.lt_or_ge k (total - 2) with hin | hout
  · rw [byteAt_set_ne (by omega), byteAt_set_ne (by omega)]
    refine footerMatches_set (by omega) ?_ h
    rwa [slice, List.getElem?_take_of_lt (by omega), List.getElem?_drop, Nat.add_sub_cancel' hstart]
  · rw [List.set_eq_of_length_le (by omega), ← Bool.not_eq_true, footerMatches_iff]
    rintro ⟨h0, h1⟩
    obtain ⟨g0, g1⟩ := (footerMatches_iff ..).mp h
    obtain rfl | rfl : k = total - 2 ∨ k = total - 1 := by omega
    · exact hbyte (g0.trans (h0.symm.trans hself))
    · exact hbyte (g1.trans (h1.symm.trans hself))

/-- A changed byte of a frame that fills the buffer, outside what its length is read from, makes it `INVALID` (R138). -/
theorem validateResult_set {p : Profile} (hp : p.WF) (hf : p.footerSize = 2) {s : List Byte} {l : Lookup} {q : Parsed}
    {k : Nat} {b : Byte} (hvalid : validateResult p s l = some q) (hsize : s.length = p.headerSize + q.payload.length + 2)
    (hk : k < s.length) (hne : s[k]? ≠ some b)
    (hlen : p.hasLength = true → k < offLen p ∨ offLen p + p.lengthWidth ≤ k)
    (hmsg : p.hasLength = false → k ≠ p.headerSize - 1) : validateResult p (s.set k b) l = none := by
  obtain ⟨hover, hmatch, n, hn, htotal, hsum, rfl⟩ := (validate_ok_iff ..).mp ((validateResult_some_iff ..).mp hvalid)
  have htotal_eq : totalSize p n = p.headerSize + n + 2 := by rw [totalSize, Profile.overhead, hf]; omega
  have hpayload : (slice s p.headerSize (p.headerSize + n)).length = n := by rw [slice_length (by omega)]; omega
  rw [validFrame, hpayload] at hsize
  have hheader := hp.headerSize_eq
  rw [validateResult_none_iff]
  intro q' hq'
  obtain ⟨-, hmatch', n', hn', -, hsum', -⟩ := (validate_ok_iff ..).mp hq'
  rw [payloadLength_set hp l s b hlen hmsg, hn] at hn'
  cases hn'
  rcases Nat.lt_or_ge k p.nStart with hstart | hstart
  · exact Bool.false_ne_true ((startBytesMatch_set hp (by omega) hstart hne hmatch).symm.trans hmatch')
  · have hbad := checksumOk_set hf hstart (by omega) (by omega) htotal hne (hsum (by omega))
    exact Bool.false_ne_true (hbad.symm.trans (hsum' (by omega)))

/-- Settles O30: a changed start byte fails the match, any other changed byte the checksum. -/
theorem aChangedByteOutsideTheLengthIsDetected : Obligations.AChangedByteOutsideTheLengthIsDetected := by
  intro s t p f l q k b hexec hres hf hsize hk hne hlen hmsg
  obtain ⟨hp, hl, rfl⟩ := validateOp_next hexec
  have hvalid := Result.parse.inj hres
  rw [exec_decValidate, execDecValidate, validateOp_ready s hp hl,
    validateResult_set hp hf hvalid hsize hk hne hlen hmsg]

end Sys2Proof.Machine
end

section
/-!
SUPPORT. The sizes of a profile (41_profile_sizing.md R140 to R147): the formula of the header size, the ranges of the
derived sizes, what the operations of CFG return, and the table of the canonical profiles.
-/

namespace Sys2Proof

/-! ### The derived sizes (R142 to R144) -/

/-- The header size counts each flag as 1 and the length field by its width (R142). -/
theorem Profile.headerSize_eq_count (p : Profile) : p.headerSize =
    p.nStart + (if p.hasSequence then 1 else 0) + (if p.hasSystemId then 1 else 0) + (if p.hasComponentId then 1 else 0) +
      (if p.hasLength then p.lengthWidth else 0) + (if p.hasPackageId then 1 else 0) + 1 := by
  simp only [Profile.headerSize, Profile.lenBytes, Bool.toNat, Bool.cond_eq_ite]

/-- The largest header and a footer of two bytes (R144). -/
theorem Profile.WF.overhead_le {p : Profile} (h : p.WF) : p.overhead ≤ 11 :=
  Nat.add_le_add h.headerSize_le h.footerSize_le

theorem Profile.overhead_pos (p : Profile) : 1 ≤ p.overhead :=
  Nat.le_add_right_of_le p.headerSize_pos

theorem Profile.maxPayload_oneByte {p : Profile} (hl : p.hasLength = true) (hw : p.lengthWidth = 1) :
    p.maxPayload = some 255 := by
  rw [Profile.maxPayload, if_pos hl, if_pos hw]

theorem Profile.maxPayload_twoBytes {p : Profile} (hl : p.hasLength = true) (hw : p.lengthWidth = 2) :
    p.maxPayload = some 65535 := by
  rw [Profile.maxPayload, if_pos hl, if_neg (by omega)]

theorem Profile.maxPayload_lengthless {p : Profile} (hl : p.hasLength = false) : p.maxPayload = none := by
  rw [Profile.maxPayload, if_neg (by simp [hl])]

end Sys2Proof

namespace Sys2Proof.Machine

/-! ### The operations of CFG (R142 to R144) -/

theorem exec_cfgHeaderSize_wf {p : Profile} (hp : p.WF) (s : State) :
    exec (.cfgHeaderSize p) s = .next { s with result := .size p.headerSize } := by
  rw [exec_cfgHeaderSize, execCfgHeaderSize, withProfile_wf hp, complete_eq]

theorem exec_cfgOverhead_wf {p : Profile} (hp : p.WF) (s : State) :
    exec (.cfgOverhead p) s = .next { s with result := .size p.overhead } := by
  rw [exec_cfgOverhead, execCfgOverhead, withProfile_wf hp, complete_eq]

theorem exec_cfgMaxPayload_bounded {p : Profile} (hp : p.WF) {n : Nat} (hn : p.maxPayload = some n) (s : State) :
    exec (.cfgMaxPayload p) s = .next { s with result := .size n } := by
  rw [exec_cfgMaxPayload, execCfgMaxPayload, withProfile_wf hp, complete_eq, hn]

theorem exec_cfgMaxPayload_unbounded {p : Profile} (hp : p.WF) (hn : p.maxPayload = none) (s : State) :
    exec (.cfgMaxPayload p) s = .next { s with result := .unbounded } := by
  rw [exec_cfgMaxPayload, execCfgMaxPayload, withProfile_wf hp, complete_eq, hn]

/-- Settles O16: the size returned is the count of the fields, which well-formedness ties to the stored field. -/
theorem cfgHeaderSizeCountsTheHeader : Obligations.CfgHeaderSizeCountsTheHeader :=
  fun s p hp => ⟨p.headerSize, exec_cfgHeaderSize_wf hp s, p.headerSize_eq_count, hp.stored_eq.symm, p.headerSize_pos,
    hp.headerSize_le⟩

/-- Settles O18: the stored header size of a well-formed profile is the counted one. -/
theorem cfgOverheadAddsTheFooter : Obligations.CfgOverheadAddsTheFooter :=
  fun s p hp => ⟨p.overhead, exec_cfgOverhead_wf hp s, by rw [hp.stored_eq, Profile.overhead], p.overhead_pos,
    hp.overhead_le⟩

/-- Settles O17: one clause for each width of the length field, and one without it. -/
theorem cfgMaxPayloadFollowsTheLengthField : Obligations.CfgMaxPayloadFollowsTheLengthField :=
  fun s _ hp =>
    ⟨fun hl hw => exec_cfgMaxPayload_bounded hp (Profile.maxPayload_oneByte hl hw) s,
     fun hl hw => exec_cfgMaxPayload_bounded hp (Profile.maxPayload_twoBytes hl hw) s,
     fun hl => exec_cfgMaxPayload_unbounded hp (Profile.maxPayload_lengthless hl) s⟩

/-- Settles O19: the table is evaluated on the five constants (R147). -/
theorem canonicalProfilesHaveTheTabledSizes : Obligations.CanonicalProfilesHaveTheTabledSizes := by
  unfold Obligations.CanonicalProfilesHaveTheTabledSizes
  decide

end Sys2Proof.Machine
end

section
/-!
SUPPORT. What ENC.ENCODE answers (42_encoder.md R150 to R155): a frame that DEC.VALIDATE reads back, a failure or a refusal, and
the operands its answer does not depend on.
-/

namespace Sys2Proof.Machine

/-! ### The round trip (R155) -/

/-- An encoded frame has the size of the overhead and the payload (R92). -/
theorem encodeFrame_length {p : Profile} (hp : p.WF) {m sq sy co pk : Byte} {payload f : List Byte}
    (hf : encodeFrame p m payload sq sy co pk = .ok f) : f.length = p.overhead + payload.length := by
  obtain ⟨-, rfl⟩ := (encodeFrame_ok_iff ..).mp hf
  rw [List.length_append, frameBody_length hp, footerBytes_length hp, Profile.overhead]
  omega

theorem exec_decValidate_ready {p : Profile} {l : Option Lookup} (hp : p.WF)
    (hl : p.hasLength = true ∨ lookupFits (l.getD []) = true) (buffer : List Byte) (s : State) :
    exec (.decValidate p buffer l) s = .next { s with result := .parse (validateResult p buffer (l.getD [])) } := by
  rw [exec_decValidate, execDecValidate, validateOp_ready s hp hl]

/-- Settles O25: a frame returned comes from a well-formed profile, under which DEC.VALIDATE is admitted by the length field or
else by the premise on the lookup, and it reads back the message the frame was built from. -/
theorem validateRecoversWhatEncodeBuilt : Obligations.ValidateRecoversWhatEncodeBuilt := by
  intro s t p m sq sy co pk payload f l henc hresult hlookup
  obtain ⟨hp, hf⟩ := exec_encEncode_frame henc hresult
  have hadmitted : p.hasLength = true ∨ lookupFits (l.getD []) = true := by
    cases h : p.hasLength with
    | true => exact .inl rfl
    | false => exact .inr (hlookup h).1
  refine ⟨encodeFrame_length hp hf, ?_⟩
  rw [exec_decValidate_ready hp hadmitted, validateResult_encodeFrame hp hf fun h => (hlookup h).2]

/-! ### Payloads ENC.ENCODE builds no frame for (R151) -/

theorem encodeFrame_tooLarge {p : Profile} {payload : List Byte} (h : payloadTooLarge p payload.length = true)
    (m sq sy co pk : Byte) : encodeFrame p m payload sq sy co pk = .error .payloadTooLarge := if_pos h

theorem exec_encEncode_tooLarge {p : Profile} {payload : List Byte} (hp : p.WF) (hlen : p.hasLength = true)
    (hlarge : (if p.lengthWidth = 1 then 255 else 65535) < payload.length) (m sq sy co pk : Byte) (s : State) :
    exec (.encEncode p m payload sq sy co pk) s = .next { s with result := .failurePayloadTooLarge } := by
  have htoo : payloadTooLarge p payload.length = true := (payloadTooLarge_iff ..).mpr ⟨hlen, hlarge⟩
  rw [exec_encEncode, execEncEncode, withProfile_wf hp, if_pos (.inl hlen), encodeFrame_tooLarge htoo, encodeResult,
    complete_eq]

theorem exec_encEncode_beyondCap {p : Profile} {payload : List Byte} (hp : p.WF) (hlen : p.hasLength = false)
    (hcap : Config.payloadCap < payload.length) (m sq sy co pk : Byte) (s : State) :
    exec (.encEncode p m payload sq sy co pk) s = .refused .capacityExceeded := by
  have hnot : ¬ (p.hasLength = true ∨ withinPayloadCap payload.length = true) := by
    rw [withinPayloadCap_iff, hlen]
    simpa using hcap
  rw [exec_encEncode, execEncEncode, withProfile_wf hp, if_neg hnot]

/-- Settles O22: one clause for each side of the bound, of the length field where there is one and of the capacity where
there is none. -/
theorem encodeFailsExactlyOnAPayloadTooLarge : Obligations.EncodeFailsExactlyOnAPayloadTooLarge :=
  fun s _ m sq sy co pk _ hp =>
    ⟨fun hlen hlarge => exec_encEncode_tooLarge hp hlen hlarge m sq sy co pk s,
     fun hlen hfits => ⟨_, exec_encEncode_ok hp (fun _ => hfits) (by simp [hlen]) m sq sy co pk s⟩,
     fun hlen hcap => ⟨_, exec_encEncode_ok hp (by simp [hlen]) (fun _ => hcap) m sq sy co pk s⟩,
     fun hlen hcap => exec_encEncode_beyondCap hp hlen hcap m sq sy co pk s⟩

/-! ### Operands of absent fields (R153) -/

theorem optByte_congr {present : Bool} {b b' : Byte} (h : present = true → b = b') : optByte present b = optByte present b' := by
  cases present with
  | true => rw [h rfl]
  | false => rfl

/-- Settles O24: the operands enter a frame through its header alone, each as an optional byte. -/
theorem encodeIgnoresOperandsOfAbsentFields : Obligations.EncodeIgnoresOperandsOfAbsentFields := by
  intro s p m sq sy co pk sq' sy' co' pk' payload hsq hsy hco hpk
  have hheader : headerBytes p payload.length m sq sy co pk = headerBytes p payload.length m sq' sy' co' pk' := by
    rw [headerBytes, optByte_congr hsq, optByte_congr hsy, optByte_congr hco, optByte_congr hpk, headerBytes]
  have hframe : encodeFrame p m payload sq sy co pk = encodeFrame p m payload sq' sy' co' pk' := by
    rw [encodeFrame, frameBody, hheader, encodeFrame, frameBody]
  rw [exec_encEncode, execEncEncode, hframe, exec_encEncode, execEncEncode]

end Sys2Proof.Machine
end

section
/-!
SUPPORT. When DEC.VALIDATE answers `VALID` (43_oneshot_decoder.md R160 to R173): the checks at the offsets of the buffer, and a
valid buffer as a header with the frame it declares behind it, which more bytes leave valid and fewer cannot hold.
-/

namespace Sys2Proof.Machine

/-! ### The checks at the offsets of the buffer (R160 to R169) -/

/-- The length a buffer declares, for a well-formed profile (R100, R106, R164). -/
theorem payloadLength_eq_some_iff {p : Profile} (hp : p.WF) (l : Lookup) (s : List Byte) (n : Nat) :
    payloadLength p l s = some n ↔
      if p.hasLength then
        n = if p.lengthWidth = 1 then (byteAt s (offLen p)).toNat
            else (byteAt s (offLen p)).toNat + 256 * (byteAt s (offLen p + 1)).toNat
      else lookupLength l (byteAt s (p.headerSize - 1)) = some n := by
  rw [payloadLength, offMsg_eq]
  cases hl : p.hasLength with
  | false => rfl
  | true =>
    rcases hp.2.1 with h | hw | hw
    · rw [hl] at h
      cases h
    · simp [decodeLen, hw, eq_comm]
    · simp [decodeLen, hw, eq_comm]

/-- The start bytes match exactly where each configured one stands at its offset (R99, R162). -/
theorem startBytesMatch_iff_getElem? {p : Profile} (hp : p.WF) {s : List Byte} (hs : p.nStart ≤ s.length) :
    startBytesMatch p s = true ↔
      (1 ≤ p.nStart → s[0]? = some p.start1) ∧ (p.nStart = 2 → s[1]? = some p.start2) := by
  have hbyte : ∀ i b, i < p.nStart → (byteAt s i = b ↔ s[i]? = some b) := fun i b hi => by
    rw [getElem?_of_byteAt (by omega), Option.some.injEq]
  simp only [startBytesMatch, Bool.and_eq_true, Bool.or_eq_true, decide_eq_true_eq, beq_iff_eq]
  rcases hp.1 with h | h | h
  · simp [h]
  · simp [h, hbyte 0 _ (by omega)]
  · simp [h, hbyte 0 _ (by omega), hbyte 1 _ (by omega)]

/-- The checksum test of a frame with `n` payload bytes: the footer behind the payload is the checksum of everything between
it and the start bytes (R134, R135). -/
theorem checksumOk_totalSize_iff {p : Profile} (hp : p.WF) (s : List Byte) (n : Nat) :
    (0 < p.footerSize → checksumOk p s (totalSize p n) = true) ↔
      (p.footerSize = 2 → isChecksum (slice s p.nStart (p.headerSize + n)) (byteAt s (p.headerSize + n))
        (byteAt s (p.headerSize + n + 1))) := by
  rcases hp.footer_cases with hf | hf
  · simp [hf]
  · have htotal : totalSize p n = p.headerSize + n + 2 := by rw [totalSize, Profile.overhead, hf]; omega
    rw [isChecksum_iff, checksumOk, checksummedRange, htotal, hf, Nat.add_sub_cancel]
    simp

theorem pkgIdOf_eq_headerSize_sub (p : Profile) (s : List Byte) :
    pkgIdOf p s = if p.hasPackageId then byteAt s (p.headerSize - 2) else 0 := by
  unfold pkgIdOf
  split
  · rename_i hpkg
    have hoff : offPkg p = p.headerSize - 2 := by
      simp only [offPkg, offLen, Profile.headerSize, hpkg, Bool.toNat_true]
      omega
    rw [hoff]
  · rfl

theorem eq_validFrame_iff (q : Parsed) (m k : Byte) (payload : List Byte) :
    q = validFrame m k payload ↔
      q.msgId = zext32 m ∧ q.pkgId = k ∧ q.payload = payload ∧ q.payloadLen = BitVec.ofNat 32 payload.length := by
  rcases q with ⟨msgId, pkgId, bytes, len⟩
  simp only [validFrame, Parsed.mk.injEq]

/-- Settles O26: the checks of R160 one by one at their offsets; the first size check follows from the second, and the payload
slice has the declared length because the frame fits the buffer. -/
theorem validateAcceptsExactlyTheValidFrames : Obligations.ValidateAcceptsExactlyTheValidFrames := by
  intro s p buffer l hready
  obtain ⟨hp, hl⟩ : p.WF ∧ (p.hasLength = true ∨ lookupFits (l.getD []) = true) := hready
  refine ⟨_, exec_decValidate_ready hp hl buffer s, fun q => ?_⟩
  have hheader := hp.headerSize_eq
  rw [validateResult_some_iff, validate_ok_iff]
  simp only [checksumOk_totalSize_iff hp, eq_validFrame_iff, offMsg_eq, pkgIdOf_eq_headerSize_sub]
  simp only [totalSize, Profile.overhead]
  constructor
  · rintro ⟨-, hstart, n, hn, hsize, hsum, hmsg, hpkg, hpayload, hlen⟩
    have hn' : (slice buffer p.headerSize (p.headerSize + n)).length = n := by rw [slice_length (by omega)]; omega
    obtain ⟨hstart1, hstart2⟩ := (startBytesMatch_iff_getElem? hp (by omega)).mp hstart
    exact ⟨n, (payloadLength_eq_some_iff hp ..).mp hn, hsize, hstart1, hstart2, hsum, hmsg, hpkg, hpayload,
      hpayload ▸ hn', hn' ▸ hlen⟩
  · rintro ⟨n, hn, hsize, hstart1, hstart2, hsum, hmsg, hpkg, hpayload, hn', hlen⟩
    have hstart := (startBytesMatch_iff_getElem? hp (by omega)).mpr ⟨hstart1, hstart2⟩
    exact ⟨by omega, hstart, n, (payloadLength_eq_some_iff hp ..).mpr hn, hsize, hsum, hmsg, hpkg, hpayload,
      by rw [← hpayload, hn', hlen]⟩

/-! ### A valid buffer with more bytes, and with fewer (R171, R173) -/

/-- A buffer long enough whose start bytes match opens with a complete header (R90, R161, R162). -/
theorem isHeader_take {p : Profile} (hp : p.WF) {s : List Byte} (hs : p.headerSize ≤ s.length)
    (hstart : startBytesMatch p s = true) :
    IsHeader p (s.take p.headerSize) (byteAt s (offMsg p)) (pkgIdOf p s) where
  wf := hp
  length := List.length_take_of_le hs
  start := by
    have hle : p.nStart ≤ p.headerSize := by rw [hp.headerSize_eq]; omega
    rw [List.take_take, Nat.min_eq_left hle, ← (startBytesMatch_iff hp (by omega)).mp hstart]
  msg := byteAt_take (by have := p.headerSize_pos; rw [offMsg_eq]; omega)
  pkg := by
    rw [pkgIdOf_eq_headerSize_sub, byteAt_take (by have := p.headerSize_pos; omega), pkgIdOf_eq_headerSize_sub]

/-- A valid buffer is a complete header and, behind it, the frame the header declares (R160). -/
theorem validateResult_some_parts {p : Profile} (hp : p.WF) {s : List Byte} {l : Lookup} {q : Parsed}
    (h : validateResult p s l = some q) :
    ∃ (hdr body : List Byte) (m k : Byte) (n : Nat), s = hdr ++ body ∧ IsHeader p hdr m k ∧
      payloadLength p l hdr = some n ∧ FrameBehind p hdr body n ∧ q = validFrame m k (body.take n) := by
  obtain ⟨hover, hstart, n, hn, -⟩ := (validate_ok_iff ..).mp ((validateResult_some_iff ..).mp h)
  have hheader := isHeader_take hp (Nat.le_trans (Nat.le_add_right ..) hover) hstart
  have hs := List.take_append_drop p.headerSize s
  have hn' : payloadLength p l (s.take p.headerSize) = some n := by
    rw [← hheader.payloadLength_append (s.drop p.headerSize), hs, hn]
  rw [← hs, hheader.validateResult_some _ hn', Option.ite_none_right_eq_some] at h
  obtain ⟨hframe, hq⟩ := h
  exact ⟨_, _, _, _, n, hs.symm, hheader, hn', hframe, (Option.some.inj hq).symm⟩

/-- A frame behind a header is still there with more bytes behind it (R171). -/
theorem FrameBehind.append {p : Profile} {hdr body : List Byte} {n : Nat} (h : FrameBehind p hdr body n)
    (tail : List Byte) : FrameBehind p hdr (body ++ tail) n := by
  obtain ⟨hsize, hsum⟩ := h
  refine ⟨by rw [List.length_append]; omega, fun hf => ?_⟩
  rw [List.take_append_of_le_length (by omega), byteAt_append_left (by omega), byteAt_append_left (by omega)]
  exact hsum hf

/-- More bytes behind a valid buffer change nothing (R171). -/
theorem validateResult_append {p : Profile} (hp : p.WF) {s : List Byte} {l : Lookup} {q : Parsed}
    (h : validateResult p s l = some q) (tail : List Byte) : validateResult p (s ++ tail) l = some q := by
  obtain ⟨hdr, body, m, k, n, rfl, hheader, hn, hframe, rfl⟩ := validateResult_some_parts hp h
  have ⟨hsize, _⟩ := hframe
  rw [List.append_assoc, hheader.validateResult_some _ hn, if_pos (hframe.append tail),
    List.take_append_of_le_length (by omega)]

/-- A valid buffer holds the frame whose payload it answers (R166). -/
theorem validateResult_size {p : Profile} (hp : p.WF) {s : List Byte} {l : Lookup} {q : Parsed}
    (h : validateResult p s l = some q) : p.overhead + q.payload.length ≤ s.length := by
  obtain ⟨hdr, body, m, k, n, rfl, hheader, -, ⟨hsize, -⟩, rfl⟩ := validateResult_some_parts hp h
  rw [validFrame, List.length_append, hheader.length, Profile.overhead, List.length_take_of_le (by omega)]
  omega

/-- Settles O28: the frame stays behind the same header, and nothing behind the frame is read. -/
theorem trailingBytesAreIgnored : Obligations.TrailingBytesAreIgnored := by
  intro s t p f tail l q hexec hres
  obtain ⟨hp, hl, rfl⟩ := validateOp_next hexec
  have hvalid := Result.parse.inj hres
  rw [exec_decValidate_ready hp hl, exec_decValidate_ready hp hl, hvalid, validateResult_append hp hvalid]

/-- An encoded frame cut short is `INVALID`: the bytes cut off would leave its answer unchanged, and a buffer that
answers the whole message is at least as long as the frame (R171, R173). -/
theorem validateResult_take_encodeFrame {p : Profile} (hp : p.WF) {l : Lookup} {m sq sy co pk : Byte}
    {payload f : List Byte} {k : Nat} (hf : encodeFrame p m payload sq sy co pk = .ok f) (hk : k < f.length)
    (hl : p.hasLength = false → lookupLength l m = some payload.length) : validateResult p (f.take k) l = none := by
  by_contra hne
  obtain ⟨q, hq⟩ := Option.ne_none_iff_exists'.mp hne
  have hwhole := validateResult_append hp hq (f.drop k)
  rw [List.take_append_drop, validateResult_encodeFrame hp hf hl] at hwhole
  cases hwhole
  have hsize : p.overhead + payload.length ≤ (f.take k).length := validateResult_size hp hq
  have hlen := encodeFrame_length hp hf
  rw [List.length_take] at hsize
  omega

/-- Settles O29: the decoding is admitted by the length field, or else by the premise on the lookup. -/
theorem strictPrefixesAreInvalid : Obligations.StrictPrefixesAreInvalid := by
  intro s t p m sq sy co pk payload f l k henc hresult hk hlookup
  obtain ⟨hp, hf⟩ := exec_encEncode_frame henc hresult
  have hadmitted : p.hasLength = true ∨ lookupFits (l.getD []) = true :=
    (Bool.eq_false_or_eq_true p.hasLength).imp_right fun h => (hlookup h).1
  rw [exec_decValidate_ready hp hadmitted, validateResult_take_encodeFrame hp hf hk fun h => (hlookup h).2]

end Sys2Proof.Machine
end

section
/-!
SUPPORT. One byte given to the streaming decoder (44_streaming_decoder.md R181 to R190, R195): every state row is an SDEC.STEP,
and what the rule of each state answers.
-/

namespace Sys2Proof.Machine

/-! ### The state rows (R181; log 2) -/

theorem exec_sdecStepLfs1_eq (b : Byte) (s : State) : exec (.sdecStepLfs1 b) s = exec (.sdecStep b) s :=
  stepByRow_eq fun h => (sdecStep_lfs1 h _ _ b).symm

theorem exec_sdecStepLfs2_eq (b : Byte) (s : State) : exec (.sdecStepLfs2 b) s = exec (.sdecStep b) s :=
  stepByRow_eq fun h => (sdecStep_lfs2 h _ _ b).symm

theorem exec_sdecStepHdr_eq (b : Byte) (s : State) : exec (.sdecStepHdr b) s = exec (.sdecStep b) s :=
  stepByRow_eq fun h => (sdecStep_hdr h _ _ b).symm

theorem exec_sdecStepPay_eq (b : Byte) (s : State) : exec (.sdecStepPay b) s = exec (.sdecStep b) s :=
  stepByRow_eq fun h => (sdecStep_pay h _ _ b).symm

theorem exec_sdecStepFtr_eq (b : Byte) (s : State) : exec (.sdecStepFtr b) s = exec (.sdecStep b) s :=
  stepByRow_eq fun h => (sdecStep_ftr h _ _ b).symm

/-- Settles O44: row by row. -/
theorem stepRunsTheRowTheStateSelects : Obligations.StepRunsTheRowTheStateSelects := by
  intro s b row hrow
  simp only [List.mem_cons, List.not_mem_nil, or_false] at hrow
  rcases hrow with rfl | rfl | rfl | rfl | rfl
  · exact exec_sdecStepLfs1_eq b s
  · exact exec_sdecStepLfs2_eq b s
  · exact exec_sdecStepHdr_eq b s
  · exact exec_sdecStepPay_eq b s
  · exact exec_sdecStepFtr_eq b s

/-- Settles O43: the full reset is the idle state, whatever the decoder held. -/
theorem sdecResetMakesTheInstanceIdle : Obligations.SdecResetMakesTheInstanceIdle := fun _ => rfl

/-! ### Between frames: LFS1 and LFS2 (R183 to R185) -/

theorem stepLfs1_headerByte {p : Profile} (h : p.nStart = 0) (l : Lookup) (d : Sdec) (b : Byte) :
    stepLfs1 p l d b = stepHdr p l { d with buf := [], cursor := 0, state := .hdr } b := if_pos h

theorem stepLfs1_start1 {p : Profile} (h : 1 ≤ p.nStart) (l : Lookup) (d : Sdec) :
    stepLfs1 p l d p.start1 =
      accumulate { d with buf := [p.start1], cursor := 0, state := if p.nStart = 2 then .lfs2 else .hdr } := by
  rw [stepLfs1, if_neg (by omega), if_pos rfl]

theorem stepLfs1_other {p : Profile} (h : 1 ≤ p.nStart) (l : Lookup) (d : Sdec) {b : Byte} (hb : b ≠ p.start1) :
    stepLfs1 p l d b = raiseDiscard d .invalidStartBytes := by
  rw [stepLfs1, if_neg (by omega), if_neg hb]

/-- Settles O36: one clause for the first start byte and one for every other byte. -/
theorem lfs1LooksForTheFirstStartByte : Obligations.Lfs1LooksForTheFirstStartByte := by
  intro s b hready hs hstart
  have hstep := exec_sdecStep_ready hready b
  rw [sdecStep_lfs1 hs] at hstep
  refine ⟨_, hstep, (exec_sdecStepLfs1_eq b s).trans hstep, fun hb => ?_, fun hb => ?_⟩
  · subst hb
    rw [stepLfs1_start1 hstart, accumulate]
  · rw [stepLfs1_other hstart _ _ hb, raiseDiscard]

/-- Settles O37: the rule of LFS1 is then that of HDR on the emptied buffer. -/
theorem lfs1WithoutStartBytesParsesTheHeader : Obligations.Lfs1WithoutStartBytesParsesTheHeader := by
  intro s b hready hs hstart
  have hstep := exec_sdecStep_ready hready b
  refine ⟨_, hstep, (exec_sdecStepLfs1_eq b s).trans hstep, ?_⟩
  rw [exec_sdecStepHdr_eq, exec_sdecStep_ready (by exact hready) b, sdecStep_hdr rfl, sdecStep_lfs1 hs,
    stepLfs1_headerByte hstart]

/-- Settles O38: the tests of LFS2 in their order, and no branch gives a result. -/
theorem lfs2LooksForTheSecondStartByte : Obligations.Lfs2LooksForTheSecondStartByte := by
  intro s b hready hs
  have hstep := exec_sdecStep_ready hready b
  rw [sdecStep_lfs2 hs] at hstep
  refine ⟨_, hstep, (exec_sdecStepLfs2_eq b s).trans hstep, ?_⟩
  unfold stepLfs2
  split
  · rfl
  · split
    · rw [← hs, accumulate]
    · rfl

/-! ### The header (R186, R187) -/

/-- Before its last byte a header takes the byte into the field at the cursor (R186). -/
theorem stepHdr_field {p : Profile} {d : Sdec} {t : Tag} (hmore : d.cursor + 1 < p.hdrLen)
    (ht : p.fields[d.cursor]? = some t) (l : Lookup) (b : Byte) :
    stepHdr p l d b = accumulate { writeField { d with buf := d.buf ++ [b] } t b with cursor := d.cursor + 1 } := by
  rw [stepHdr, if_neg (by omega), writeAtCursor_eq (d := { d with buf := d.buf ++ [b] }) ht]

/-- The last byte of a header is the msg_id (R140, R187). -/
theorem stepHdr_last {p : Profile} {d : Sdec} (hlast : d.cursor + 1 = p.hdrLen) (l : Lookup) (b : Byte) :
    stepHdr p l d b = endHeader p l { d with buf := d.buf ++ [b], cursor := d.cursor + 1, msgId := b } := by
  have ht : p.fields[d.cursor]? = some .msg := by
    rw [← p.fields_last, ← hlast, Nat.add_sub_cancel]
  rw [stepHdr, if_pos hlast, writeAtCursor_eq (d := { d with buf := d.buf ++ [b] }) ht, writeField]

/-- A field byte writes the register of its tag and no other (R186). -/
theorem writeField_eq (d : Sdec) (t : Tag) (b : Byte) : writeField d t b = { d with
    seq := if t = .seq then b else d.seq
    sysId := if t = .sys then b else d.sysId
    compId := if t = .comp then b else d.compId
    lenField := (writeField d t b).lenField
    pkgId := if t = .pkg then b else d.pkgId
    msgId := if t = .msg then b else d.msgId } := by
  cases t <;> rfl

/-- LEN1 adds 256 times the byte to a register that holds one byte, so the sum fits 16 bits (R186). -/
theorem writeField_len1_toNat {d : Sdec} (h : d.lenField.toNat < 256) (b : Byte) :
    (writeField d .len1 b).lenField.toNat = d.lenField.toNat + 256 * b.toNat := by
  have hb := b.isLt
  simp only [writeField, BitVec.toNat_add, BitVec.toNat_mul, BitVec.toNat_setWidth, BitVec.toNat_ofNat]
  omega

/-- Settles O39: the invariant bounds the length register where the cursor is at LEN1. -/
theorem headerByteGoesToItsField : Obligations.HeaderByteGoesToItsField := by
  intro s b tag hready hs hmore htag
  have hstep := exec_sdecStep_ready hready b
  rw [sdecStep_hdr hs, stepHdr_field hmore htag, accumulate, writeField_eq] at hstep
  refine ⟨_, fun h0 => ?len0, fun h1 hinv => ?len1, fun h0 h1 => ?other, _, hstep,
    (exec_sdecStepHdr_eq b s).trans hstep, rfl⟩
  case len0 =>
    subst h0
    exact BitVec.toNat_setWidth_of_le (by decide)
  case len1 =>
    subst h1
    exact writeField_len1_toNat (hinv.sdec.lenField_lt_of_len1 hs htag) b
  case other => rw [writeField_lenField, if_neg h0, if_neg h1]

/-- The payload length at the end of a header is the length register or the answer of the lookup (R187). -/
theorem endHeader_of_length {p : Profile} {l : Lookup} {d : Sdec} {n : Nat}
    (hn : if p.hasLength then n = d.lenField.toNat else lookupLength l d.msgId = some n) :
    endHeader p l d = startPayload p d n := by
  unfold endHeader
  split at hn
  · rename_i hl
    rw [if_pos hl, hn]
  · rename_i hl
    rw [if_neg hl, hn]

theorem endHeader_unknown {p : Profile} {l : Lookup} {d : Sdec} (hl : p.hasLength = false)
    (hn : lookupLength l d.msgId = none) : endHeader p l d = raiseReset d .unknownMessageLength := by
  rw [endHeader, if_neg (by simp [hl]), hn]

/-- A frame with nothing behind its header completes there, with an empty payload (R187, R190). -/
theorem startPayload_empty {p : Profile} (hf : p.footerSize = 0) (d : Sdec) :
    (startPayload p d 0).dec = Sdec.idle ∧ (startPayload p d 0).res = some (validFrame d.msgId d.pkgId []) := by
  rw [startPayload, if_neg (by omega), if_neg (by omega)]
  refine ⟨completeFrame_dec .., ?_⟩
  rw [completeFrame_res, if_neg (by omega), Nat.add_zero, slice_self]

/-- A header with payload or footer behind it goes on to the first of the two that is there (R187). -/
theorem startPayload_more {p : Profile} {n : Nat} (h : ¬ (n = 0 ∧ p.footerSize = 0)) (d : Sdec) :
    startPayload p d n = accumulate { d with
      payloadLen := n
      payloadRemaining := n
      footerRemaining := p.footerSize
      state := if 0 < n then .pay else .ftr } := by
  unfold startPayload
  split
  · rfl
  · rw [if_pos (by omega)]

/-- Settles O40: what the last header byte does is decided by the payload length and by what is behind the header. -/
theorem endOfHeaderChoosesTheNextState : Obligations.EndOfHeaderChoosesTheNextState := by
  intro s b hready hs hlast
  have hstep := exec_sdecStep_ready hready b
  rw [sdecStep_hdr hs, stepHdr_last hlast] at hstep
  refine ⟨_, _, hstep, (exec_sdecStepHdr_eq b s).trans hstep, fun hl hn => ?unknown, fun n hn => ?known⟩
  case unknown =>
    rw [endHeader_unknown hl hn, raiseReset, fullReset_eq]
    exact ⟨rfl, rfl⟩
  case known =>
    rw [endHeader_of_length hn]
    split
    · rename_i hempty
      obtain ⟨rfl, hf⟩ := hempty
      exact startPayload_empty hf _
    · rename_i hmore
      rw [startPayload_more hmore, accumulate]
      exact ⟨rfl, rfl⟩

/-! ### The payload and the footer (R188 to R190) -/

/-- Completion without a footer is `VALID` (R190). -/
theorem completeFrame_no_footer {p : Profile} (hf : p.footerSize = 0) (d : Sdec) :
    (completeFrame p d).res =
      some (validFrame d.msgId d.pkgId (slice d.buf p.headerSize (p.headerSize + d.payloadLen))) := by
  rw [completeFrame_res, if_neg (by omega)]

/-- The footer of a buffer is its last two bytes, checked over everything between the start bytes and them (R134, R135). -/
theorem checksumOk_concat_footer {p : Profile} (hf : p.footerSize = 2) (frame : List Byte) (f0 f1 : Byte) :
    checksumOk p (frame ++ [f0, f1]) (frame ++ [f0, f1]).length = true ↔ isChecksum (frame.drop p.nStart) f0 f1 := by
  have h0 : byteAt (frame ++ [f0, f1]) frame.length = f0 := byteAt_of_getElem? (by simp)
  have h1 : byteAt (frame ++ [f0, f1]) (frame.length + 1) = f1 := byteAt_of_getElem? (by simp)
  have hlen : (frame ++ [f0, f1]).length = frame.length + 2 := by simp
  rw [checksumOk, checksummedRange, hlen, hf, Nat.add_sub_cancel, slice_append_length,
    show frame.length + 2 - 1 = frame.length + 1 from rfl, h0, h1, isChecksum_iff]

/-- Completion with a footer is decided by it (R190). -/
theorem completeFrame_footer {p : Profile} (hf : p.footerSize = 2) {d : Sdec} {frame : List Byte} {f0 f1 : Byte}
    (hbuf : d.buf = frame ++ [f0, f1]) :
    (completeFrame p d).res = if isChecksum (frame.drop p.nStart) f0 f1 then
      some (validFrame d.msgId d.pkgId (slice d.buf p.headerSize (p.headerSize + d.payloadLen))) else none := by
  have hsum := checksumOk_concat_footer hf frame f0 f1
  rw [← hbuf] at hsum
  rw [completeFrame_res]
  split
  · rename_i hbad
    rw [if_neg (by rw [← hsum, hbad.2]; decide)]
  · rename_i hgood
    rw [if_pos (hsum.mp (by simpa [hf] using hgood))]

theorem stepPay_more {p : Profile} {d : Sdec} (h : 1 < d.payloadRemaining) (b : Byte) :
    stepPay p d b = accumulate { d with buf := d.buf ++ [b], payloadRemaining := d.payloadRemaining - 1 } := by
  rw [stepPay, if_neg (by show d.payloadRemaining - 1 ≠ 0; omega)]

theorem stepPay_last_footer {p : Profile} {d : Sdec} (h : d.payloadRemaining = 1) (hf : 0 < d.footerRemaining) (b : Byte) :
    stepPay p d b = accumulate { d with buf := d.buf ++ [b], payloadRemaining := d.payloadRemaining - 1, state := .ftr } := by
  rw [stepPay, if_pos (by show d.payloadRemaining - 1 = 0; omega), if_pos hf]

theorem stepPay_last_complete {p : Profile} {d : Sdec} (h : d.payloadRemaining = 1) (hf : d.footerRemaining = 0) (b : Byte) :
    stepPay p d b = completeFrame p { d with buf := d.buf ++ [b], payloadRemaining := d.payloadRemaining - 1 } := by
  rw [stepPay, if_pos (by show d.payloadRemaining - 1 = 0; omega), if_neg (by omega)]

theorem stepFtr_more {p : Profile} {d : Sdec} (h : 1 < d.footerRemaining) (b : Byte) :
    stepFtr p d b = accumulate { d with buf := d.buf ++ [b], footerRemaining := d.footerRemaining - 1 } := by
  rw [stepFtr, if_neg (by show d.footerRemaining - 1 ≠ 0; omega)]

theorem stepFtr_last {p : Profile} {d : Sdec} (h : d.footerRemaining = 1) (b : Byte) :
    stepFtr p d b = completeFrame p { d with buf := d.buf ++ [b], footerRemaining := d.footerRemaining - 1 } := by
  rw [stepFtr, if_pos (by show d.footerRemaining - 1 = 0; omega)]

/-- Settles O41: one case for a byte that is not the last, and two for the last, with and without a footer. -/
theorem payloadByteIsCounted : Obligations.PayloadByteIsCounted := by
  intro s b hready hs hrem hfr
  have hstep := exec_sdecStep_ready hready b
  rw [sdecStep_pay hs] at hstep
  refine ⟨_, _, hstep, (exec_sdecStepPay_eq b s).trans hstep, ?_⟩
  by_cases hlast : s.sdec.payloadRemaining = 1
  · by_cases hf : s.sdecConn.profile.footerSize = 0
    · rw [if_pos ⟨hlast, hf⟩, stepPay_last_complete hlast (hfr.trans hf)]
      exact ⟨completeFrame_dec .., _, completeFrame_no_footer hf _, rfl, rfl, rfl, rfl⟩
    · rw [if_neg (fun h => hf h.2), stepPay_last_footer hlast (by omega), if_pos hlast]
      exact ⟨rfl, rfl⟩
  · rw [if_neg (fun h => hlast h.1), stepPay_more (by omega), if_neg hlast, ← hs]
    exact ⟨rfl, rfl⟩

/-- Settles O42: the last byte completes the frame, and the footer decides. -/
theorem footerDecidesTheFrame : Obligations.FooterDecidesTheFrame := by
  intro s b hready hs hf hrem
  have hstep := exec_sdecStep_ready hready b
  rw [sdecStep_ftr hs] at hstep
  refine ⟨_, _, hstep, (exec_sdecStepFtr_eq b s).trans hstep, fun hmore => ?more, fun hlast => ?last⟩
  case more =>
    rw [stepFtr_more (by omega)]
    exact ⟨rfl, rfl⟩
  case last =>
    rw [stepFtr_last hlast]
    refine ⟨completeFrame_dec .., fun frame f0 hbuf => ?_⟩
    have hframe : s.sdec.buf ++ [b] = frame ++ [f0, b] := by rw [hbuf, List.append_assoc]; rfl
    rw [completeFrame_footer hf hframe]
    exact ⟨fun hbad => if_neg hbad, fun hgood => ⟨_, if_pos hgood, rfl, rfl, rfl, rfl⟩⟩

/-! ### No comparison inside a frame (R195) -/


/-- Where the state is neither LFS1 nor LFS2, no rule reads the start-byte values (R195). -/
theorem sdecStep_other_start_values {d : Sdec} (hs : d.state = .hdr ∨ d.state = .pay ∨ d.state = .ftr) (p : Profile)
    (l : Lookup) (b x y : Byte) : sdecStep { p with start1 := x, start2 := y } l d b = sdecStep p l d b := by
  rcases hs with hs | hs | hs
  · rw [sdecStep_hdr hs, sdecStep_hdr hs]
    rfl
  · rw [sdecStep_pay hs, sdecStep_pay hs]
    rfl
  · rw [sdecStep_ftr hs, sdecStep_ftr hs]
    rfl

/-- Settles O51: the admission of the profile does not read them either. -/
theorem insideAFrameStartBytesAreNotCompared : Obligations.InsideAFrameStartBytesAreNotCompared := by
  intro s t b x y hs hexec
  obtain ⟨hready, rfl⟩ := sdecByte_next hexec
  rw [exec_sdecStep_ready (by exact hready) b]
  dsimp only
  rw [sdecStep_other_start_values hs]

end Sys2Proof.Machine
end

section
/-!
SUPPORT. Whole frames given to the streaming decoder byte by byte (44_streaming_decoder.md R192, R196): the bytes of one frame
end it with the one-shot decoder's answer for the frame, and the buffer is always the last bytes fed.
-/

namespace Sys2Proof.Machine

/-! ### The bytes of one frame (R192, R196) -/

/-- The bytes complete the frame `whole`: no byte but the last gives a result, the last gives what the one-shot decoder
answers for the frame, and the decoder is idle behind it. -/
def CompletesFrame (c : Connection) (d : Sdec) (bs whole : List Byte) : Prop :=
  feed c.profile c.lookup d bs =
    (Sdec.idle, List.replicate (bs.length - 1) none ++ [validateResult c.profile whole c.lookup])

theorem CompletesFrame.ne_nil {c : Connection} {d : Sdec} {bs whole : List Byte} (h : CompletesFrame c d bs whole) :
    bs ≠ [] := by
  rintro rfl
  simp [CompletesFrame, feed] at h

/-- A byte that completes the frame. -/
theorem completesFrame_singleton {c : Connection} {d : Sdec} {b : Byte} {whole : List Byte}
    (hidle : (sdecStep c.profile c.lookup d b).dec = Sdec.idle)
    (hres : (sdecStep c.profile c.lookup d b).res = validateResult c.profile whole c.lookup) :
    CompletesFrame c d [b] whole := by
  simp [CompletesFrame, feed, hidle, hres]

/-- A byte without a result before bytes that complete the frame. -/
theorem CompletesFrame.cons {c : Connection} {d : Sdec} {b : Byte} {bs whole : List Byte}
    (hres : (sdecStep c.profile c.lookup d b).res = none)
    (h : CompletesFrame c (sdecStep c.profile c.lookup d b).dec bs whole) : CompletesFrame c d (b :: bs) whole := by
  have hlen := List.length_pos_iff.mpr h.ne_nil
  have hcount : (b :: bs).length - 1 = bs.length - 1 + 1 := by rw [List.length_cons]; omega
  rw [CompletesFrame] at h
  rw [CompletesFrame, feed, h, hres, hcount, List.replicate_succ, List.cons_append]

/-- From PAY or FTR exactly the bytes the frame still needs complete it (R188 to R190, R192). -/
theorem completesFrame_from_payload_or_footer {c : Connection} (bs : List Byte) : ∀ {d : Sdec}, SdecInv c d →
    (d.state = .pay ∨ d.state = .ftr) → d.buf.length + bs.length = totalSize c.profile d.payloadLen →
    CompletesFrame c d bs (d.buf ++ bs) := by
  induction bs with
  | nil =>
    intro d h hs hlen
    rw [List.length_nil] at hlen
    rcases (sdecStep_payload_or_footer h hs 0).2 with ⟨hlt, -⟩ | ⟨hlast, -⟩ <;> omega
  | cons b bs ih =>
    intro d h hs hlen
    rw [List.length_cons] at hlen
    rcases (sdecStep_payload_or_footer h hs b).2 with ⟨hlt, hres, hbuf, hpl, hs'⟩ | ⟨hlast, hidle, hres⟩
    · have hrest := ih (sdecStep_inv h b) hs' (by rw [hbuf, hpl, List.length_append, List.length_singleton]; omega)
      rw [hbuf, List.append_assoc, List.singleton_append] at hrest
      exact .cons hres hrest
    · obtain rfl : bs = [] := List.length_eq_zero_iff.mp (by omega)
      exact completesFrame_singleton hidle hres

/-- Settles O50: the bytes complete the frame in progress, whatever the checksum says. -/
theorem frameInProgressEndsIdle : Obligations.FrameInProgressEndsIdle := by
  intro s bs hinv hready hs hlen
  have hdone := completesFrame_from_payload_or_footer bs hinv.sdec hs (by rw [hlen, totalSize, Profile.overhead]; omega)
  obtain ⟨t, hrun, hdec⟩ := performAll_sdecStep bs s hready
  exact ⟨t, _, hrun, by rw [hdec, hdone]⟩

/-- The length a complete header declares is not changed by the bytes behind it (R106, R164). -/
theorem payloadLength_append {p : Profile} (hp : p.WF) (l : Lookup) {s : List Byte} (h : p.headerSize ≤ s.length)
    (tail : List Byte) : payloadLength p l (s ++ tail) = payloadLength p l s :=
  payloadLength_congr hp l fun _ hi => byteAt_append_left (by omega)

/-- From HDR the rest of a frame whose header declares its size completes it (R186 to R190). -/
theorem completesFrame_from_header {c : Connection} (hp : c.profile.WF) {n : Nat} (bs : List Byte) : ∀ {d : Sdec},
    HeaderSoFar c.profile d → d.state = .hdr → payloadLength c.profile c.lookup (d.buf ++ bs) = some n →
    d.buf.length + bs.length = totalSize c.profile n → CompletesFrame c d bs (d.buf ++ bs) := by
  have hheader := hp.headerSize_eq
  have htotal : totalSize c.profile n = c.profile.headerSize + c.profile.footerSize + n := rfl
  induction bs with
  | nil =>
    intro d h hs hn hlen
    have hbuf := h.length
    have hcursor := h.cursor
    rw [List.length_nil] at hlen
    omega
  | cons b bs ih =>
    intro d h hs hn hlen
    have hbuf := h.length
    have hinv := stepHdr_inv hp h hs b
    have hcases := stepHdr_cases hp h b
    have hsize : (d.buf ++ [b]).length = d.buf.length + 1 := by simp
    rw [← sdecStep_hdr hs] at hinv hcases
    rw [List.append_cons] at hn ⊢
    rw [List.length_cons] at hlen
    rcases hcases with ⟨-, hres, hbuf', hs'⟩ | ⟨hlast, hnone, -⟩ | ⟨hlast, m, hm, hmore | ⟨hempty, hres, hidle⟩⟩
    · rw [hs] at hs'
      rw [← hbuf'] at hn ⊢
      exact .cons hres (ih (hinv.headerSoFar hs') hs' hn (by rw [hbuf', hsize]; omega))
    · rw [payloadLength_append hp _ (by omega), hnone] at hn
      cases hn
    · obtain ⟨-, hres, hbuf', hpl, hs'⟩ := hmore
      rw [payloadLength_append hp _ (by omega), hm, Option.some.injEq] at hn
      rw [← hbuf']
      exact .cons hres (completesFrame_from_payload_or_footer bs hinv hs' (by rw [hbuf', hsize, hpl, hn]; omega))
    · rw [payloadLength_append hp _ (by omega), hm, Option.some.injEq] at hn
      obtain rfl : bs = [] := List.length_eq_zero_iff.mp (by omega)
      exact completesFrame_singleton hidle (by rw [hres, List.append_nil])

/-! ### From between two frames (R183 to R185) -/

/-- LFS2 behind the first start byte, with no other register written (R183). -/
abbrev afterStart1 (p : Profile) : Sdec := { Sdec.idle with state := .lfs2, buf := [p.start1] }

/-- HDR behind the start bytes, with no other register written (R183 to R185). -/
abbrev afterStartBytes (p : Profile) : Sdec := { Sdec.idle with state := .hdr, buf := p.startBytes }

/-- Behind the start bytes every field register and every field byte is still 0. -/
theorem afterStartBytes_headerSoFar {p : Profile} (hp : p.WF) : HeaderSoFar p (afterStartBytes p) where
  fields := by
    have hzero : ∀ i, p.nStart ≤ i → byteAt p.startBytes i = 0 := fun i hi =>
      byteAt_of_le (by rwa [hp.startBytes_length])
    have hlen : p.nStart ≤ offLen p := by unfold offLen; omega
    constructor
    · simp [hzero (offSeq p) (Nat.le_refl _)]
    · simp [hzero (offSys p) (by unfold offSys; omega)]
    · simp [hzero (offComp p) (by unfold offComp; omega)]
    · simp [decodeLen, hzero _ hlen, hzero (offLen p + 1) (by omega)]
    · simp [pkgIdOf, hzero (offPkg p) (by unfold offPkg; omega)]
    · simp [hzero (offMsg p) (by unfold offMsg; omega)]
  length := hp.startBytes_length
  cursor := p.hdrLen_pos
  start := List.take_of_length_le (Nat.le_of_eq hp.startBytes_length)
  idle := ⟨rfl, rfl, rfl⟩

/-- The decoder is between frames: idle, or in LFS2 under a profile whose start bytes differ (R192). -/
def BetweenFrames (p : Profile) (d : Sdec) : Prop :=
  d = Sdec.idle ∨ (d = afterStart1 p ∧ p.nStart = 2 ∧ p.start1 ≠ p.start2)

theorem BetweenFrames.eq_idle {p : Profile} {d : Sdec} (h : BetweenFrames p d) (hn : p.nStart ≠ 2) : d = Sdec.idle :=
  h.resolve_right fun hlfs2 => hn hlfs2.2.1

theorem startBytes_of_no_start {p : Profile} (h : p.nStart = 0) : p.startBytes = [] := by
  simp [Profile.startBytes, h]

theorem startBytes_of_one_start {p : Profile} (h : p.nStart = 1) : p.startBytes = [p.start1] := by
  simp [Profile.startBytes, h]

theorem startBytes_of_two_starts {p : Profile} (h : p.nStart = 2) : p.startBytes = [p.start1, p.start2] := by
  simp [Profile.startBytes, h]

/-- Without start bytes the idle decoder takes a byte as the decoder in HDR does (R184). -/
theorem sdecStep_idle_of_no_start {p : Profile} (h : p.nStart = 0) (l : Lookup) (b : Byte) :
    sdecStep p l Sdec.idle b = sdecStep p l (afterStartBytes p) b := by
  rw [sdecStep_lfs1 rfl, stepLfs1_headerByte h, sdecStep_hdr rfl, afterStartBytes, startBytes_of_no_start h]
  rfl

/-- The only start byte leads from idle to HDR (R183). -/
theorem sdecStep_idle_of_one_start {p : Profile} (h : p.nStart = 1) (l : Lookup) :
    sdecStep p l Sdec.idle p.start1 = accumulate (afterStartBytes p) := by
  rw [sdecStep_lfs1 rfl, stepLfs1_start1 (by omega), if_neg (by omega), afterStartBytes, startBytes_of_one_start h]
  rfl

/-- Between frames the first of two start bytes leads to LFS2, also from LFS2 (R183, R185). -/
theorem sdecStep_start1_of_betweenFrames {p : Profile} {d : Sdec} (h : BetweenFrames p d) (h2 : p.nStart = 2) (l : Lookup) :
    sdecStep p l d p.start1 = accumulate (afterStart1 p) := by
  rcases h with rfl | ⟨rfl, -, hne⟩
  · rw [sdecStep_lfs1 rfl, stepLfs1_start1 (by omega), if_pos h2]
    rfl
  · rw [sdecStep_lfs2 rfl, stepLfs2, if_neg hne, if_pos rfl]

/-- The second of two start bytes leads from LFS2 to HDR (R185). -/
theorem sdecStep_afterStart1 {p : Profile} (h : p.nStart = 2) (l : Lookup) :
    sdecStep p l (afterStart1 p) p.start2 = accumulate (afterStartBytes p) := by
  rw [sdecStep_lfs2 rfl, stepLfs2, if_pos rfl, afterStartBytes, startBytes_of_two_starts h]
  rfl

/-- The start bytes lead from between frames to HDR, where the rest completes the frame (R183 to R185). -/
theorem CompletesFrame.startBytes_append {c : Connection} (hp : c.profile.WF) {d : Sdec} (hd : BetweenFrames c.profile d)
    {bs whole : List Byte} (h : CompletesFrame c (afterStartBytes c.profile) bs whole) :
    CompletesFrame c d (c.profile.startBytes ++ bs) whole := by
  rcases hp.1 with h0 | h1 | h2
  · obtain rfl := hd.eq_idle (by omega)
    obtain ⟨b, bs, rfl⟩ := List.exists_cons_of_ne_nil h.ne_nil
    rw [startBytes_of_no_start h0, List.nil_append, CompletesFrame, feed, sdecStep_idle_of_no_start h0]
    exact h
  · obtain rfl := hd.eq_idle (by omega)
    have hstep := sdecStep_idle_of_one_start h1 c.lookup
    rw [startBytes_of_one_start h1]
    exact .cons (by rw [hstep]; rfl) (by rw [hstep]; exact h)
  · have hfirst := sdecStep_start1_of_betweenFrames hd h2 c.lookup
    have hsecond := sdecStep_afterStart1 h2 c.lookup
    rw [startBytes_of_two_starts h2]
    refine .cons (by rw [hfirst]; rfl) ?_
    rw [hfirst]
    exact .cons (by rw [accumulate, hsecond]; rfl) (by rw [accumulate, hsecond]; exact h)

/-- From between frames a frame whose start bytes match and whose header declares its size is completed (R196). -/
theorem completesFrame_from_betweenFrames {c : Connection} (hp : c.profile.WF) {d : Sdec} (hd : BetweenFrames c.profile d)
    {g : List Byte} {n : Nat} (hstart : g.take c.profile.nStart = c.profile.startBytes)
    (hn : payloadLength c.profile c.lookup g = some n) (hlen : g.length = totalSize c.profile n) :
    CompletesFrame c d g g := by
  obtain ⟨bs, rfl⟩ : ∃ bs, g = c.profile.startBytes ++ bs := ⟨_, (hstart ▸ List.take_append_drop ..).symm⟩
  refine .startBytes_append hp hd ?_
  exact completesFrame_from_header hp bs (afterStartBytes_headerSoFar hp) rfl hn (by rw [← hlen, List.length_append])

/-- A frame that fills a valid buffer: its start bytes match, and its header declares the payload answered (R160, R166). -/
theorem validateResult_some_frame {p : Profile} (hp : p.WF) {g : List Byte} {l : Lookup} {q : Parsed}
    (h : validateResult p g l = some q) :
    g.take p.nStart = p.startBytes ∧ payloadLength p l g = some q.payload.length := by
  obtain ⟨hdr, body, m, k, n, rfl, hheader, hn, ⟨hsize, -⟩, rfl⟩ := validateResult_some_parts hp h
  rw [take_append_of_header hheader.nStart_le, hheader.payloadLength_append, hn, validFrame,
    List.length_take_of_le (by omega)]
  exact ⟨hheader.start, rfl⟩

/-- Settles O48: a valid buffer of exactly one frame is one that its bytes complete. -/
theorem streamingDecoderAcceptsWhatValidateAccepts : Obligations.StreamingDecoderAcceptsWhatValidateAccepts := by
  intro s u g q hready hbetween hexec hres hlen
  obtain ⟨hp, -, rfl⟩ := validateOp_next hexec
  have hvalid : validateResult s.sdecConn.profile g s.sdecConn.lookup = some q := Result.parse.inj hres
  obtain ⟨hstart, hn⟩ := validateResult_some_frame hp hvalid
  have hdone := completesFrame_from_betweenFrames hp hbetween hstart hn hlen
  obtain ⟨t, hrun, hdec⟩ := performAll_sdecStep g s hready
  rw [hdone, hvalid] at hrun hdec
  exact ⟨t, by simpa using hrun, hdec⟩

/-! ### The buffer is the last bytes fed (R186 to R190) -/

/-- A byte is appended to the buffer, or starts it anew, or empties it. -/
theorem sdecStep_buf_suffix {c : Connection} {d : Sdec} (h : SdecInv c d) {fed : List Byte} (hbuf : d.buf <:+ fed) (b : Byte) :
    (sdecStep c.profile c.lookup d b).dec.buf <:+ fed ++ [b] := by
  rcases sdecStep_cases h b with ⟨-, hempty | hanew | happended⟩ | ⟨n, -, -, -, hidle⟩
  · rw [hempty]
    exact List.nil_suffix
  · rw [hanew]
    exact List.suffix_append ..
  · rw [happended]
    exact List.suffix_append_self_iff.mpr hbuf
  · rw [hidle]
    exact List.nil_suffix

theorem feed_buf_suffix {c : Connection} (bs : List Byte) : ∀ {d : Sdec} {fed : List Byte}, SdecInv c d → d.buf <:+ fed →
    (feed c.profile c.lookup d bs).1.buf <:+ fed ++ bs := by
  induction bs with
  | nil => exact fun _ hbuf => by simpa [feed] using hbuf
  | cons b bs ih =>
    intro d fed h hbuf
    rw [List.append_cons]
    exact ih (sdecStep_inv h b) (sdecStep_buf_suffix h hbuf b)

/-- A byte that gives a valid result ends a frame that, with it, is the whole buffer, and the one-shot decoder answers the same
(R190, R196). -/
theorem sdecStep_valid {c : Connection} {d : Sdec} (h : SdecInv c d) {b : Byte} {q : Parsed}
    (hres : (sdecStep c.profile c.lookup d b).res = some q) :
    validateResult c.profile (d.buf ++ [b]) c.lookup = some q ∧
      (d.buf ++ [b]).length = c.profile.overhead + q.payload.length := by
  rcases sdecStep_cases h b with ⟨hnone, -⟩ | ⟨n, hn, hsame, hlen, -⟩
  · rw [hnone] at hres
    cases hres
  · rw [hsame] at hres
    obtain ⟨-, hpayload⟩ := validateResult_some_frame h.profile hres
    rw [hn, Option.some.injEq] at hpayload
    exact ⟨hres, by rw [hlen, totalSize, hpayload]⟩

/-- A run of at least one SDEC.STEP is performed under a connection that is ready only. -/
theorem ready_of_performAll_sdecStep {s : State} {bs : List Byte} {r : State × List Result} (hbs : bs ≠ [])
    (h : performAll (bs.map .sdecStep) s = some r) : s.sdecConn.Ready := by
  obtain ⟨b, bs, rfl⟩ := List.exists_cons_of_ne_nil hbs
  rw [List.map_cons, performAll] at h
  split at h
  · rename_i hexec
    exact (sdecByte_next hexec).1
  · cases h

/-- Settles O49: the frame is the buffer before the last byte, and that byte. -/
theorem validateAcceptsWhatTheStreamingDecoderAccepts : Obligations.ValidateAcceptsWhatTheStreamingDecoderAccepts := by
  intro s t f rs q hidle hrun
  cases f using List.reverseRecOn with
  | nil =>
    obtain ⟨-, hnil⟩ := Prod.mk.inj (Option.some.inj hrun)
    simp at hnil
  | append_singleton f b =>
    have hready := ready_of_performAll_sdecStep (by simp) hrun
    obtain ⟨t', hrun', -⟩ := performAll_sdecStep (f ++ [b]) s hready
    have hinv := feed_inv f (idle_inv hready.1)
    have hsuffix := feed_buf_suffix f (idle_inv hready.1) (List.nil_suffix (l := []))
    rw [hrun', feed_append, hidle] at hrun
    generalize (feed s.sdecConn.profile s.sdecConn.lookup Sdec.idle f).1 = d at hrun hinv hsuffix
    obtain ⟨pre, rfl⟩ := hsuffix
    obtain ⟨-, -, hlast⟩ : t' = t ∧ _ ∧ (sdecStep s.sdecConn.profile s.sdecConn.lookup d b).res = some q := by
      simpa [feed] using hrun
    obtain ⟨hvalid, hlen⟩ := sdecStep_valid hinv hlast
    refine ⟨pre, d.buf ++ [b], List.append_assoc .., hlen, ?_⟩
    rw [exec_decValidate_ready hready.1 (by exact hready.2), Option.getD_some, hvalid]

end Sys2Proof.Machine
end

section
/-!
SUPPORT. The accumulating reader (45_accumulating_reader.md R211 to R215): what ACR.NEXT answers under an admitted connection,
and what draining the reader gives in terms of feeding its decoder the same bytes.
-/

namespace Sys2Proof.Machine

/-- Settles O52: the operation writes the queue by definition. -/
theorem pushAppendsToTheQueue : Obligations.PushAppendsToTheQueue := by
  intro s bytes
  rw [exec_acrPush, execAcrPush, complete_eq]

/-- Settles O53: the full reset of the decoder is the idle state. -/
theorem acrResetDropsQueueAndFrame : Obligations.AcrResetDropsQueueAndFrame := by
  intro s
  rw [exec_acrReset, execAcrReset, complete_eq, fullReset_eq]

theorem exec_acrNext_ready {s : State} (h : s.acrConn.Ready) :
    exec .acrNext s = .next { s with
      acr := ⟨(drainQueue s.acrConn.profile s.acrConn.lookup s.acr.dec s.acr.queue).1,
        (drainQueue s.acrConn.profile s.acrConn.lookup s.acr.dec s.acr.queue).2.1⟩
      result := nextResult (drainQueue s.acrConn.profile s.acrConn.lookup s.acr.dec s.acr.queue).2.2 } := by
  rw [exec_acrNext, execAcrNext, withDecoder_ready h.1 h.2, complete_eq]

/-- Settles O54: the operation is the loop `drainQueue`, which ends in one of these two ways. -/
theorem nextFeedsUpToTheFirstValidResult : Obligations.NextFeedsUpToTheFirstValidResult := by
  intro s hready
  refine ⟨_, _, exec_acrNext_ready hready, ?_⟩
  rcases drainQueue_cases s.acrConn.profile s.acrConn.lookup s.acr.queue s.acr.dec with
    ⟨hres, hqueue, hfeed⟩ | ⟨fed, q, hres, hqueue, hne, hidle, hfeed⟩
  · exact .inl ⟨by rw [hres, nextResult], hqueue, hfeed⟩
  · exact .inr ⟨fed, q, by rw [hres, nextResult], hqueue, hidle, hfeed, hne⟩

/-! ### Draining is feeding -/

/-- The valid results a decoder gives for a sequence of bytes, in order. -/
def validResults (c : Connection) (d : Sdec) (bs : List Byte) : List Parsed :=
  (feed c.profile c.lookup d bs).2.filterMap id

theorem validResults_append (c : Connection) (d : Sdec) (xs ys : List Byte) :
    validResults c d (xs ++ ys) = validResults c d xs ++ validResults c (feed c.profile c.lookup d xs).1 ys := by
  simp only [validResults, feed_append, List.filterMap_append]

/-- Calling ACR.NEXT until `Empty` feeds the decoder the whole queue and returns all its valid results: each call but the last
consumes at least one byte, and one that returns a result leaves the rest of the bytes to the calls after it. -/
theorem drainReader_ready {fuel : Nat} : ∀ {s : State}, s.acrConn.Ready → s.acr.queue.length < fuel →
    ∃ t, drainReader fuel s = some (t, validResults s.acrConn s.acr.dec s.acr.queue) ∧ t.acrConn = s.acrConn ∧
      t.acr = ⟨(feed s.acrConn.profile s.acrConn.lookup s.acr.dec s.acr.queue).1, []⟩ := by
  induction fuel with
  | zero => exact fun _ h => absurd h (Nat.not_lt_zero _)
  | succ fuel ih =>
    intro s hready hfuel
    obtain ⟨⟨dec, queue⟩, r, hexec, ⟨rfl, rfl, hfeed⟩ | ⟨fed, q, rfl, hqueue, -, hfeed, hne⟩⟩ :=
      nextFeedsUpToTheFirstValidResult s hready
    · refine ⟨{ s with acr := ⟨dec, []⟩, result := .empty }, ?_, rfl, by rw [hfeed]⟩
      rw [drainReader, hexec, validResults, hfeed, List.filterMap_replicate_of_none rfl]
    · have hshorter : queue.length < fuel := by
        have hfed := List.length_pos_iff.mpr hne
        simp only [hqueue, List.length_append] at hfuel
        omega
      obtain ⟨t, hdrain, hconn, hacr⟩ := ih (s := { s with acr := ⟨dec, queue⟩, result := .parse (some q) }) hready hshorter
      have hfirst : validResults s.acrConn s.acr.dec fed = [q] := by
        rw [validResults, hfeed, List.filterMap_append, List.filterMap_replicate_of_none rfl]
        rfl
      refine ⟨t, ?_, hconn, by rw [hacr, hqueue, feed_append, hfeed]⟩
      rw [hqueue, validResults_append, hfirst, hfeed, drainReader, hexec]
      dsimp only
      rw [hdrain]
      rfl

/-- Delivering one chunk more in front: the queue and the chunk are fed, and the chunks behind it find an empty queue. -/
theorem deliver_cons {s : State} (hready : s.acrConn.Ready) (c : List Byte) (cs : List (List Byte)) :
    ∃ t : State, deliver (c :: cs) s =
        (deliver cs t).map (fun v => (v.1, validResults s.acrConn s.acr.dec (s.acr.queue ++ c) ++ v.2)) ∧
      t.acrConn = s.acrConn ∧
      t.acr = ⟨(feed s.acrConn.profile s.acrConn.lookup s.acr.dec (s.acr.queue ++ c)).1, []⟩ := by
  obtain ⟨t, hdrain, hconn, hacr⟩ := drainReader_ready (fuel := (s.acr.queue ++ c).length + 1)
    (s := { s with acr := ⟨s.acr.dec, s.acr.queue ++ c⟩, result := .none }) hready (Nat.lt_succ_self _)
  refine ⟨t, ?_, hconn, hacr⟩
  rw [deliver, pushAppendsToTheQueue]
  dsimp only
  rw [hdrain]

/-- Delivering chunks feeds the decoder the queue and their concatenation, and nothing tells how it was cut. -/
theorem deliver_ready (cs : List (List Byte)) : ∀ {s : State} (c : List Byte), s.acrConn.Ready →
    ∃ t, deliver (c :: cs) s = some (t, validResults s.acrConn s.acr.dec (s.acr.queue ++ (c :: cs).flatten)) ∧
      t.acr = ⟨(feed s.acrConn.profile s.acrConn.lookup s.acr.dec (s.acr.queue ++ (c :: cs).flatten)).1, []⟩ := by
  induction cs with
  | nil =>
    intro s c hready
    obtain ⟨t, hdeliver, -, hacr⟩ := deliver_cons hready c []
    rw [List.flatten_singleton]
    exact ⟨t, by rw [hdeliver, deliver, Option.map_some, List.append_nil], hacr⟩
  | cons c' cs ih =>
    intro s c hready
    obtain ⟨t, hdeliver, hconn, hacr⟩ := deliver_cons hready c (c' :: cs)
    obtain ⟨u, hrest, hu⟩ := ih (s := t) c' (hconn ▸ hready)
    rw [hconn, hacr, List.nil_append] at hrest hu
    rw [List.flatten_cons, ← List.append_assoc, feed_append, validResults_append]
    exact ⟨u, by rw [hdeliver, hrest, Option.map_some], hu⟩

/-- Settles O55: both deliveries feed the decoder the same bytes. -/
theorem chunkingDoesNotMatter : Obligations.ChunkingDoesNotMatter := by
  intro s c cs hready
  obtain ⟨t, ht, htacr⟩ := deliver_ready cs c hready
  obtain ⟨u, hu, huacr⟩ := deliver_ready [] (c :: cs).flatten hready
  rw [List.flatten_singleton] at hu huacr
  exact ⟨t, u, _, ht, hu, htacr.trans huacr.symm, rfl⟩

end Sys2Proof.Machine
end

section
/-!
SUPPORT. The exceptions (60_exceptions.md R226, R228): the label of a validation, check by check in the order of R160, and that
every instruction answers a next state within its domain.
-/

namespace Sys2Proof.Machine

/-! ### The checks of a validation in their order (R160, R228) -/

section
variable {p : Profile} {buffer : List Byte} {l : Lookup} {n : Nat}

theorem validate_bufferTooShort (h : buffer.length < p.overhead) : validate p buffer l = .error .bufferTooShort := if_pos h

theorem validate_invalidStartBytes (hsize : p.overhead ≤ buffer.length) (h : startBytesMatch p buffer = false) :
    validate p buffer l = .error .invalidStartBytes := by
  rw [validate, if_neg hsize.not_gt, if_pos h]

theorem validate_unknownMessageLength (hsize : p.overhead ≤ buffer.length) (hstart : startBytesMatch p buffer = true)
    (h : payloadLength p l buffer = none) : validate p buffer l = .error .unknownMessageLength := by
  rw [validate, if_neg hsize.not_gt, if_neg (by simp [hstart]), h]

theorem validate_truncated (hsize : p.overhead ≤ buffer.length) (hstart : startBytesMatch p buffer = true)
    (hn : payloadLength p l buffer = some n) (h : buffer.length < p.overhead + n) :
    validate p buffer l = .error .truncated := by
  rw [validate, if_neg hsize.not_gt, if_neg (by simp [hstart]), hn]
  exact if_pos h

theorem validate_checksumMismatch (hstart : startBytesMatch p buffer = true) (hn : payloadLength p l buffer = some n)
    (hframe : p.overhead + n ≤ buffer.length) (hf : 0 < p.footerSize)
    (h : checksumOk p buffer (p.overhead + n) = false) : validate p buffer l = .error .checksumMismatch := by
  rw [validate, if_neg (by omega), if_neg (by simp [hstart]), hn]
  exact (if_neg hframe.not_gt).trans (if_pos ⟨hf, h⟩)

end

/-- Settles O27: the checks are taken in their order; where one fails, its label is the only one that fits, and where none
does, the validation is no error. -/
theorem validateReportsTheFirstFailingCheck : Obligations.ValidateReportsTheFirstFailingCheck := by
  intro p buffer l
  rcases lt_or_ge buffer.length p.overhead with hshort | hsize
  · have hno (n : Nat) : ¬ p.overhead + n ≤ buffer.length := by omega
    simp [validate_bufferTooShort hshort, hshort, hno]
  have hnotShort := hsize.not_gt
  cases hstart : startBytesMatch p buffer with
  | false => simp [validate_invalidStartBytes hsize hstart, hsize]
  | true =>
    cases hn : payloadLength p l buffer with
    | none => simp [validate_unknownMessageLength hsize hstart hn, hsize]
    | some n =>
      rcases lt_or_ge buffer.length (p.overhead + n) with htrunc | hframe
      · simp [validate_truncated hsize hstart hn htrunc, hsize, htrunc]
      · by_cases hsum : 0 < p.footerSize ∧ checksumOk p buffer (p.overhead + n) = false
        · obtain ⟨hf, hbad⟩ := hsum
          simp [validate_checksumMismatch hstart hn hframe hf hbad, hsize, hframe, hf, hbad]
        · have hok : 0 < p.footerSize → checksumOk p buffer (totalSize p n) = true := by
            simpa [totalSize] using hsum
          have hvalid := (validate_ok_iff p buffer l _).mpr ⟨hsize, hstart, n, hn, hframe, hok, rfl⟩
          simpa [hvalid, hsize, hframe] using hsum

/-! ### Within its domain every instruction answers (R226, R37) -/

/-- ENC.ENCODE answers a frame or a failure for every payload it is admitted with. -/
theorem exec_encEncode_admitted {p : Profile} {payload : List Byte} (hp : p.WF)
    (h : p.hasLength = true ∨ payload.length ≤ Config.payloadCap) (m sq sy co pk : Byte) (s : State) :
    exec (.encEncode p m payload sq sy co pk) s =
      .next { s with result := encodeResult (encodeFrame p m payload sq sy co pk) } := by
  rw [← withinPayloadCap_iff] at h
  rw [exec_encEncode, execEncEncode, withProfile_wf hp, if_pos h, complete_eq]

/-- CFG.MAX_PAYLOAD answers the bound, or that there is none. -/
theorem exec_cfgMaxPayload_wf {p : Profile} (hp : p.WF) (s : State) : ∃ t, exec (.cfgMaxPayload p) s = .next t := by
  cases hn : p.maxPayload with
  | some n => exact ⟨_, exec_cfgMaxPayload_bounded hp hn s⟩
  | none => exact ⟨_, exec_cfgMaxPayload_unbounded hp hn s⟩

/-- Settles O56: the operations without a premise are total by definition; each other one passes its admission check, the frame
rows with the profile of their row. -/
theorem everyInstructionInItsDomainAnswers : Obligations.EveryInstructionInItsDomainAnswers
  | s, .cfgHeaderSize _, hp => ⟨_, exec_cfgHeaderSize_wf hp s⟩
  | s, .cfgMaxPayload _, hp => exec_cfgMaxPayload_wf hp s
  | s, .cfgOverhead _, hp => ⟨_, exec_cfgOverhead_wf hp s⟩
  | s, .encEncode _ m _ sq sy co pk, ⟨hp, hfits⟩ => ⟨_, exec_encEncode_admitted hp hfits m sq sy co pk s⟩
  | s, .decValidate _ buffer _, ⟨hp, hl⟩ => ⟨_, exec_decValidate_ready hp hl buffer s⟩
  | s, .frameStandard _ _ _, _ => ⟨_, validateOp_ready s (p := Profile.standard) (by decide) (.inl rfl)⟩
  | s, .frameSensor _ _ _, hl => ⟨_, validateOp_ready s (p := Profile.sensor) (by decide) (.inr hl)⟩
  | s, .frameIpc _ _ _, hl => ⟨_, validateOp_ready s (p := Profile.ipc) (by decide) (.inr hl)⟩
  | s, .frameBulk _ _ _ _ _, _ => ⟨_, validateOp_ready s (p := Profile.bulk) (by decide) (.inl rfl)⟩
  | s, .frameNetwork _ _ _ _ _ _ _ _, _ => ⟨_, validateOp_ready s (p := Profile.network) (by decide) (.inl rfl)⟩
  | s, .frameGeneric _ _ _ _, ⟨hp, hl⟩ => ⟨_, validateOp_ready s hp hl⟩
  | _, .sdecStep b, hc => ⟨_, exec_sdecStep_ready hc b⟩
  | s, .sdecStepLfs1 b, hc => ⟨_, (exec_sdecStepLfs1_eq b s).trans (exec_sdecStep_ready hc b)⟩
  | s, .sdecStepLfs2 b, hc => ⟨_, (exec_sdecStepLfs2_eq b s).trans (exec_sdecStep_ready hc b)⟩
  | s, .sdecStepHdr b, hc => ⟨_, (exec_sdecStepHdr_eq b s).trans (exec_sdecStep_ready hc b)⟩
  | s, .sdecStepPay b, hc => ⟨_, (exec_sdecStepPay_eq b s).trans (exec_sdecStep_ready hc b)⟩
  | s, .sdecStepFtr b, hc => ⟨_, (exec_sdecStepFtr_eq b s).trans (exec_sdecStep_ready hc b)⟩
  | _, .acrNext, hc => ⟨_, exec_acrNext_ready hc⟩
  | _, .chkInit, _ | _, .chkUpdate _, _ | _, .chkCompute _, _ | _, .chkVerify _ _ _, _ | _, .sdecReset, _
  | _, .acrPush _, _ | _, .acrReset, _ => ⟨_, rfl⟩

end Sys2Proof.Machine
end
